-- ==== Sys2Proof/Word.lean ====
section
/-! DEFINITION. The two widths of the hardware: an instruction byte, and the word that a register and a memory cell hold. -/

namespace Sys2Proof

/-- One byte of an instruction or of a binary image (`00_scope.md` R8, `30_encoding.md` R75). -/
abbrev Byte := BitVec 8

/-- What a general register and a memory cell hold: a signed integer of `XLEN` bits in two's complement
(`10_state.md` R20, R27). DESIGN CHOICE (log entry 1): `XLEN = 32`, the spec's default (decision D2). Its integer value
is `BitVec.toInt`. -/
abbrev Word := BitVec 32

/-- The word that holds the integer `v` (exact for every `v` a 32-bit two's-complement word can hold). -/
def Word.ofInt (v : Int) : Word := BitVec.ofInt 32 v

/-- The cell that holds an image byte, the integer 0..255 (`70_reset_and_hazards.md` R192). -/
def Word.ofByte (b : Byte) : Word := b.setWidth 32

end Sys2Proof
end

