-- ==== Sys2Proof/Config.lean ====
section
/-! DEFINITION. The parameters of the hardware that the spec fixes or gives a default for (`00_scope.md` R5). `MEM_SIZE`,
which the spec leaves OPEN, is a field of the state (`Machine/State.lean`, log entry 2). -/

namespace Sys2Proof

/-- `DATA_INIT`: what the data region holds at reset (`00_scope.md` R5, `10_state.md` R32, decision D6), and so what an
address that the memory does not list reads as (log entry 7). -/
def Config.dataInit : Word := 0

/-- `PACK_MIN(n)`: the least value `pack` accepts for a slot of `n` bits (`40_codec.md` R91, decision D7, log entry 10). -/
def Config.packMin (n : Nat) : Int := -(2 ^ (n - 1))

/-- `MEM_SIZE` of the machine `State.reset` describes. DESIGN CHOICE (log entry 2): one more than 540670, the highest
address an LDM can form (`20_memory.md` R52). No statement rests on it. -/
def Config.resetMemSize : Nat := 540671

end Sys2Proof
end

