-- ==== Sys2Proof/Syntax.lean ====
section
/-! DEFINITION. The instruction set as syntax: mnemonics, the shape of a format-table entry, and the one inductive `Instr`
with a constructor for each row of `spec/opcode_table.json`. -/

namespace Sys2Proof

/-- The four canonical mnemonics (`30_encoding.md` R62, R79). -/
inductive Mnemonic where
  | lc | stm | ldm | ge
deriving DecidableEq, Repr

/-- The field letters of the format table; A, the opcode, is not among them (`30_encoding.md` R62). -/
inductive FieldName where
  | B | C | D
deriving DecidableEq, Repr

/-- The three kinds of field (`00_scope.md` R15). -/
inductive FieldKind where
  /-- A register index, unsigned. -/
  | reg
  /-- An unsigned immediate. -/
  | imm
  /-- A two's-complement signed immediate. -/
  | simm
deriving DecidableEq, Repr

/-- One field of a format: `name@offset×width(kind)` (`30_encoding.md` R62, `00_scope.md` R9). -/
structure Field where
  name : FieldName
  offset : Nat
  width : Nat
  kind : FieldKind
deriving DecidableEq, Repr

/-- One entry of the Instruction Format Table (`30_encoding.md` R62): `size` is in bytes. -/
structure Format where
  mnemonic : Mnemonic
  opcode : Nat
  size : Nat
  fields : List Field
deriving DecidableEq, Repr

/-- A register index, 0..127: no other can be formed (`10_state.md` R21). -/
abbrev RegIdx := Fin 128

/-- A decoded instruction: the mnemonic and one resolved value per field, in the table's order B, C, D
(`00_scope.md` glossary, `40_codec.md` R108). -/
inductive Instr where
  /-- `LC rB, C`: load the signed constant `c` into register `b` (`42_instructions.md` R140). -/
  | lc (b : RegIdx) (c : Int)
  /-- `STM B, rC`: store register `c` into the cell at the absolute address `b` (`42_instructions.md` R141). -/
  | stm (b : Nat) (c : RegIdx)
  /-- `LDM rC, rD, B`: load into register `c` the cell at register `d` plus the signed offset `b`
  (`42_instructions.md` R142). -/
  | ldm (b : Int) (c d : RegIdx)
  /-- `GE rD, rB, C`: set register `d` to 1 if register `b` is at least the cell at the absolute address `c`, else to 0
  (`42_instructions.md` R143). -/
  | ge (b : RegIdx) (c : Nat) (d : RegIdx)
deriving DecidableEq, Repr

end Sys2Proof
end

