-- ==== Sys2Proof/WellFormed.lean ====
section
/-! DEFINITION. Which instructions are well formed: every immediate is a canonical value of its field
(`40_codec.md` R105). A register operand is canonical by its type. -/

namespace Sys2Proof

/-- `v` is canonical for a `reg` or `imm` field of `n` bits (`40_codec.md` R105). -/
def unsignedFits (n : Nat) (v : Int) : Bool := decide (0 ≤ v ∧ v ≤ 2 ^ n - 1)

/-- `v` is canonical for a `simm` field of `n` bits (`40_codec.md` R105). -/
def signedFits (n : Nat) (v : Int) : Bool := decide (-(2 ^ (n - 1)) ≤ v ∧ v ≤ 2 ^ (n - 1) - 1)

/-- `v` is canonical for the field `f` (`40_codec.md` R105). -/
def Field.canonical (f : Field) (v : Int) : Bool :=
  match f.kind with
  | .reg => unsignedFits f.width v
  | .imm => unsignedFits f.width v
  | .simm => signedFits f.width v

/-- The instruction's immediates are in the ranges of `30_encoding.md` R63 to R66. -/
def Instr.wf : Instr → Bool
  | .lc _ c => signedFits 20 c
  | .stm b _ => unsignedFits 10 b
  | .ldm b _ _ => signedFits 15 b
  | .ge _ c _ => unsignedFits 10 c

end Sys2Proof
end

