-- ==== Sys2Proof/Decode.lean ====
section
/-! DEFINITION. The Bit-Field Codec, the Instruction Format Table, the Decoder and, after it, the Encoder
(`30_encoding.md`, `40_codec.md`). Everything here is a pure function: no state is read or written. -/

namespace Sys2Proof

/-! ### The Bit-Field Codec -/

/-- What `pack` raises: the offending value and the bit width (`40_codec.md` R90, `60_exceptions.md` R165). -/
structure RangeError where
  value : Int
  bits : Nat
deriving DecidableEq, Repr

/-- `pack(v, n)` (`40_codec.md` R90): the unsigned form of `v` in a slot of `n` bits, for any kind of field. -/
def pack (v : Int) (n : Nat) : Except RangeError Nat :=
  if v < Config.packMin n then .error ⟨v, n⟩
  else
    let r : Int := if v < 0 then v + 2 ^ n else v
    if 0 ≤ r ∧ r < 2 ^ n then .ok r.toNat else .error ⟨v, n⟩

/-- `unpack_signed(raw, n)` (`40_codec.md` R93). -/
def unpackSigned (raw n : Nat) : Int :=
  if 2 ^ (n - 1) ≤ raw then (raw : Int) - 2 ^ n else raw

/-- `unpack_unsigned(raw, n)` (`40_codec.md` R94): `raw & (2^n - 1)`, which is `raw mod 2^n` (`00_scope.md` R7). -/
def unpackUnsigned (raw n : Nat) : Int := ((raw % 2 ^ n : Nat) : Int)

/-- `extract(w, o, n)` (`40_codec.md` R95): the slice `w[o+n-1 : o]` (`00_scope.md` R9). -/
def extract (w o n : Nat) : Nat := w / 2 ^ o % 2 ^ n

/-- `decode_field(w, (o, n, kind))` (`40_codec.md` R96). -/
def decodeField (w : Nat) (f : Field) : Int :=
  match f.kind with
  | .simm => unpackSigned (extract w f.offset f.width) f.width
  | .reg => unpackUnsigned (extract w f.offset f.width) f.width
  | .imm => unpackUnsigned (extract w f.offset f.width) f.width

/-! ### The Instruction Format Table -/

/-- Format LC (`30_encoding.md` R62, R63). -/
def lcFormat : Format := ⟨.lc, 0, 4, [⟨.B, 4, 7, .reg⟩, ⟨.C, 11, 20, .simm⟩]⟩

/-- Format STM (`30_encoding.md` R62, R64). -/
def stmFormat : Format := ⟨.stm, 9, 3, [⟨.B, 4, 10, .imm⟩, ⟨.C, 14, 7, .reg⟩]⟩

/-- Format LDM (`30_encoding.md` R62, R65). -/
def ldmFormat : Format := ⟨.ldm, 13, 5, [⟨.B, 4, 15, .simm⟩, ⟨.C, 19, 7, .reg⟩, ⟨.D, 26, 7, .reg⟩]⟩

/-- Format GE (`30_encoding.md` R62, R66). -/
def geFormat : Format := ⟨.ge, 15, 4, [⟨.B, 4, 7, .reg⟩, ⟨.C, 11, 10, .imm⟩, ⟨.D, 21, 7, .reg⟩]⟩

/-- The Instruction Format Table: four entries, one per opcode (`30_encoding.md` R62). -/
def instrFormats : List Format := [lcFormat, stmFormat, ldmFormat, geFormat]

/-- Lookup by mnemonic, the Encoder's query (`30_encoding.md` R68). -/
def formatOf : Mnemonic → Format
  | .lc => lcFormat
  | .stm => stmFormat
  | .ldm => ldmFormat
  | .ge => geFormat

/-- Lookup by opcode value, the Core's query (`30_encoding.md` R68): none for the twelve illegal values (R71). -/
def formatByOpcode (a : Nat) : Option Format := instrFormats.find? (fun f => f.opcode == a)

/-- `ILEN(op)`: the instruction length in bytes (`30_encoding.md` R60). -/
def ilen (m : Mnemonic) : Nat := (formatOf m).size

/-- The bits of a format's word that belong to the opcode or to a field (`30_encoding.md` R67). -/
def usedMask (f : Format) : Nat := f.fields.foldl (fun acc fd => acc ||| ((2 ^ fd.width - 1) <<< fd.offset)) 0xF

/-! ### Instructions as records -/

/-- The mnemonic of a decoded instruction. -/
def Instr.mnemonic : Instr → Mnemonic
  | .lc _ _ => .lc
  | .stm _ _ => .stm
  | .ldm _ _ _ => .ldm
  | .ge _ _ _ => .ge

/-- The decoded values in the table's field order B, C, D (`40_codec.md` R112). -/
def Instr.values : Instr → List Int
  | .lc b c => [(b.val : Int), c]
  | .stm b c => [(b : Int), (c.val : Int)]
  | .ldm b c d => [b, (c.val : Int), (d.val : Int)]
  | .ge b c d => [(b.val : Int), (c : Int), (d.val : Int)]

/-- The Decoded Instruction's record: one resolved integer per field (`40_codec.md` R108). -/
abbrev Record := List (FieldName × Int)

/-- The value a record holds for a field; every format's record holds each field its instruction has. -/
def fieldValue (r : Record) (n : FieldName) : Int := (r.lookup n).getD 0

/-- A decoded `reg` field as a register index. -/
def regIdx (v : Int) : RegIdx := Fin.ofNat 128 v.toNat

/-- The instruction a record stands for (`40_codec.md` R108). -/
def Instr.ofRecord (m : Mnemonic) (r : Record) : Instr :=
  match m with
  | .lc => .lc (regIdx (fieldValue r .B)) (fieldValue r .C)
  | .stm => .stm (fieldValue r .B).toNat (regIdx (fieldValue r .C))
  | .ldm => .ldm (fieldValue r .B) (regIdx (fieldValue r .C)) (regIdx (fieldValue r .D))
  | .ge => .ge (regIdx (fieldValue r .B)) (fieldValue r .C).toNat (regIdx (fieldValue r .D))

/-! ### The Decoder -/

/-- Every field of a format, extracted and unpacked by its kind (`40_codec.md` R108). -/
def decodeRecord (f : Format) (w : Nat) : Record := f.fields.map fun fd => (fd.name, decodeField w fd)

/-- Decoding with the format already looked up; it cannot fail (`40_codec.md` R109). -/
def decodeFormat (f : Format) (w : Nat) : Instr := Instr.ofRecord f.mnemonic (decodeRecord f w)

/-- `decode_word(w)` (`40_codec.md` R108): none exactly where the opcode, bits 3..0, is not in the table. -/
def decodeWord (w : Nat) : Option Instr := (formatByOpcode (w % 16)).map fun f => decodeFormat f w

/-- `deserialize(bytes)` (`40_codec.md` R107): the word the bytes spell, least significant first. -/
def deserialize : List Byte → Nat
  | [] => 0
  | b :: bs => b.toNat + 2 ^ 8 * deserialize bs

/-- Why a list of bytes is no instruction. The spec's `deserialize` takes exactly as many bytes as the format has
(`40_codec.md` R107), and its fault of a fetch past the end is the Core's (`20_memory.md` R45, decision D9): what a list of
too few bytes decodes to is open, and the two errors for it are a DESIGN CHOICE (log entry 19), safe. -/
inductive DecodeError where
  /-- There is no byte to read an opcode from. DESIGN CHOICE (log entry 19), safe: an error. -/
  | noBytes
  /-- The low nibble of the first byte is none of 0, 9, 13, 15 (`30_encoding.md` R71). -/
  | unknownOpcode (nibble : Nat)
  /-- The opcode's format needs `size` bytes and only `present` are there. DESIGN CHOICE (log entry 19), safe: an error. -/
  | truncated (size present : Nat)
deriving DecidableEq, Repr

/-- The instruction at the head of a list of bytes, and the bytes after it (`30_encoding.md` R73, R75). That a list which is
empty or shorter than its format is an error of the decoder is a DESIGN CHOICE (log entry 19). -/
def decodeBytes : List Byte → Except DecodeError (Instr × List Byte)
  | [] => .error .noBytes
  | b :: bs =>
    match formatByOpcode (b.toNat % 16) with
    | none => .error (.unknownOpcode (b.toNat % 16))
    | some f =>
      if (b :: bs).length < f.size then .error (.truncated f.size (b :: bs).length)
      else .ok (decodeFormat f (deserialize ((b :: bs).take f.size)), (b :: bs).drop f.size)

/-! ### The Encoder -/

/-- The Encoder's errors (`40_codec.md` R99, `60_exceptions.md` R165). -/
inductive EncodeError where
  /-- `FieldOverflow(field, value, width)`: `pack` refused the value of the field. -/
  | fieldOverflow (field : FieldName) (value : Int) (width : Nat)
  /-- The list of values is not one per field: outside the Encoder's interface (`40_codec.md` R112). DESIGN CHOICE
  (log entry 11), safe: an error. -/
  | valueCount
deriving DecidableEq, Repr

/-- The number of an error of the Encoder (`60_exceptions.md` R167, decision D14; that of `valueCount` is log
entry 11). -/
def EncodeError.code : EncodeError → Nat
  | .fieldOverflow _ _ _ => 1
  | .valueCount => 2

/-- The Encoder's numeric error output for what it answers: 0 none, or the number of its error
(`60_exceptions.md` R167, decision D14). -/
def encoderCode {α : Type} : Except EncodeError α → Nat
  | .ok _ => 0
  | .error e => e.code

/-- The loop of `encode_word` (`40_codec.md` R99): each value packed and ORed in, in table order, the first failure
reported (R100). -/
def packFields : List Field → List Int → Nat → Except EncodeError Nat
  | [], [], w => .ok w
  | f :: fs, v :: vs, w =>
    match pack v f.width with
    | .error e => .error (.fieldOverflow f.name e.value e.bits)
    | .ok p => packFields fs vs (w ||| (p <<< f.offset))
  | _, _, _ => .error .valueCount

/-- `encode_word(m, vals)` (`40_codec.md` R99). -/
def encodeWord (m : Mnemonic) (vals : List Int) : Except EncodeError Nat :=
  packFields (formatOf m).fields vals (formatOf m).opcode

/-- `serialize(w, k)` (`40_codec.md` R102): `k` bytes, the least significant first. -/
def serialize (w : Nat) : Nat → List Byte
  | 0 => []
  | k + 1 => BitVec.ofNat 8 w :: serialize (w / 2 ^ 8) k

/-- `encode(m, vals)` (`40_codec.md` R103): the whole Encoder. -/
def encodeFields (m : Mnemonic) (vals : List Int) : Except EncodeError (List Byte) :=
  match encodeWord m vals with
  | .error e => .error e
  | .ok w => .ok (serialize w (formatOf m).size)

/-- The word of an instruction. -/
def Instr.word (i : Instr) : Except EncodeError Nat := encodeWord i.mnemonic i.values

/-- The bytes of an instruction (`40_codec.md` R103). -/
def encode (i : Instr) : Except EncodeError (List Byte) := encodeFields i.mnemonic i.values

/-- An image: the concatenation of the encodings in order, and no image at all if one fails (`40_codec.md` R104). -/
def encodeImage : List (Mnemonic × List Int) → Except EncodeError (List Byte)
  | [] => .ok []
  | (m, vals) :: rest =>
    match encodeFields m vals with
    | .error e => .error e
    | .ok bs =>
      match encodeImage rest with
      | .error e => .error e
      | .ok image => .ok (bs ++ image)

/-! ### The opcode table's numbering -/

/-- The bytes of the instruction whose bits are `w`, of which the table gives `nbits`: the bits above are 0, up to the
longest instruction, 5 bytes (`30_encoding.md` R60). -/
def tableBytes (nbits w : Nat) : List Byte := serialize (w % 2 ^ nbits) 5

/-- The instruction the decoder reads from an instruction whose bits are `w`, numbered as `spec/opcode_table.json`
numbers them (bit 0 is the least significant bit of the first byte). -/
def decodeTableWord (nbits w : Nat) : Option Instr :=
  match decodeBytes (tableBytes nbits w) with
  | .ok (i, _) => some i
  | .error _ => none

end Sys2Proof
end

