-- ==== Sys2Proof/Machine/State.lean ====
section
/-! DEFINITION. The state of the Core as plain data, the faults it can latch, the refusals, and the state after reset
(`10_state.md`). -/

namespace Sys2Proof.Machine

/-- The four faults of the Core, each with the information it records (`60_exceptions.md` R161 to R164, R167). A step that
raises one answers a next state in which the latch holds it (R169, log entry 4); a step of a Core whose latch holds one
answers it as the outcome `fault`, for such a Core takes no step (R26). The marks below say what a fault of the model may
do that the source does not state. -/
inductive Fault where
  /-- `UnknownOpcode(pc, nibble)`: raised by fetch, when the low nibble of the first cell is not 0, 9, 13 or 15 (R161).
  Safe: it is the source's own fault. -/
  | unknownOpcode (pc nibble : Nat)
  /-- `OutOfBounds(address)`: raised by LDM, STM and GE, when the data address is outside `[0, MEM_SIZE)` (R162). The
  source's own fault for LDM; for STM and GE the spec's decision D8. Safe: the model stops where the source is silent. -/
  | outOfBounds (address : Int)
  /-- `FetchOutOfBounds(pc)`: raised by fetch, when the instruction extends past the last cell (R163). The spec's decision
  D9, safe. -/
  | fetchOutOfBounds (pc : Nat)
  /-- `FetchNonByte(address)`: raised by fetch, when a cell of the instruction does not hold 0..255 (R164). The spec's
  decision D10, safe. -/
  | fetchNonByte (address : Nat)
deriving DecidableEq, Repr

/-- What the model refuses. -/
inductive Refusal where
  /-- An arm of `exec` that has no meaning yet; no arm of this model answers it. Safe. -/
  | notModelled (mnemonic : String)
  /-- Raised by `launch` alone: an image of `length` bytes does not fit a memory of `memSize` cells, and the spec gives
  such a launch no meaning (`70_reset_and_hazards.md` R194, decision D19). Safe. -/
  | imageTooLong (length memSize : Nat)
deriving DecidableEq, Repr

/-- The memory: the cells that do not hold `Config.dataInit`, as pairs of an address and the whole cell, the addresses
strictly rising (`20_memory.md` R41). A cell is a word, not a byte (`10_state.md` R27; log entry 7). -/
abbrev Memory := List (Nat × Word)

/-- The state of the Core, `(x, M, pc, L, fault)`, and nothing else (`10_state.md` R33), beside the parameter
`MEM_SIZE`. -/
structure State where
  /-- The register file `x`, `r0` to `r127` (R20). -/
  regs : Vector Word 128
  /-- The memory `M` (R27). -/
  mem : Memory
  /-- The program counter, the address of the instruction's first byte (R23); a natural number, never wrapping (R24). -/
  pc : Nat
  /-- `L`, the program length, constant during a run (R25). -/
  progLen : Nat
  /-- The fault latch: none, or the cause with its information (R26). -/
  fault : Option Fault
  /-- `MEM_SIZE`, the number of cells: the spec's open parameter, carried by the state and written by no step
  (`20_memory.md` R42, decision D3; log entry 2). -/
  memSize : Nat
deriving DecidableEq, Repr

/-- The state after reset (`10_state.md` R32) with the empty image: all registers 0, pc 0, every cell 0, `L` 0, the latch
clear. How a program comes to run is log entry 3; `MEM_SIZE` is a DESIGN CHOICE (log entry 2). -/
def State.reset : State where
  regs := Vector.replicate 128 0
  mem := []
  pc := 0
  progLen := 0
  fault := none
  memSize := Config.resetMemSize

end Sys2Proof.Machine
end

