-- ==== Sys2Proof/Machine/Ops.lean ====
section
/-! DEFINITION. The named operations over registers, memory, pc and fault latch: everything a meaning is built from. -/

namespace Sys2Proof.Machine

/-! ### Registers -/

/-- `x[i]` (`00_scope.md` R11). -/
def State.reg (s : State) (i : RegIdx) : Word := s.regs[i.val]

/-- `x[i] <- v` (`00_scope.md` R11): no register discards a write (`10_state.md` R22). -/
def State.setReg (s : State) (i : RegIdx) (v : Word) : State := { s with regs := s.regs.set i.val v }

/-! ### Memory as a canonical list -/

/-- The whole cell at `a`; an address that is not listed holds `Config.dataInit`. -/
def Memory.read : Memory → Nat → Word
  | [], _ => Config.dataInit
  | (b, u) :: m, a => if a = b then u else Memory.read m a

/-- The cell `(a, v)` in front of `m`, unless an unlisted address reads as `v`. -/
def Memory.link (a : Nat) (v : Word) (m : Memory) : Memory := if v = Config.dataInit then m else (a, v) :: m

/-- The memory after the whole cell at `a` is replaced by `v`, in canonical form. -/
def Memory.write : Memory → Nat → Word → Memory
  | [], a, v => Memory.link a v []
  | (b, u) :: m, a, v =>
    if a < b then Memory.link a v ((b, u) :: m)
    else if a = b then Memory.link a v m
    else (b, u) :: Memory.write m a v

/-- The canonical form: addresses strictly rising, no entry equal to what an unlisted address reads as. -/
def Memory.wf : Memory → Bool
  | [] => true
  | (a, v) :: m => decide (v ≠ Config.dataInit) && m.all (fun c => decide (a < c.1)) && Memory.wf m

/-- Every listed address is below `n`. -/
def Memory.below (n : Nat) (m : Memory) : Bool := m.all fun c => decide (c.1 < n)

/-- `M[a]`, the cell at address `a` (`00_scope.md` R12). -/
def State.cell (s : State) (a : Nat) : Word := s.mem.read a

/-- The state after `M[a] <- v` (`00_scope.md` R12). -/
def State.setCell (s : State) (a : Nat) (v : Word) : State := { s with mem := s.mem.write a v }

/-! ### Data accesses -/

/-- `addr` names a cell (`20_memory.md` R42). -/
def State.inBounds (s : State) (addr : Int) : Bool := decide (0 ≤ addr ∧ addr < s.memSize)

/-- `MemRead(addr, 1)` (`20_memory.md` R43): the whole cell, or `OutOfBounds(addr)`. -/
def memRead (s : State) (addr : Int) : Except Fault Word :=
  if s.inBounds addr then .ok (s.cell addr.toNat) else .error (.outOfBounds addr)

/-- `MemWrite(addr, 1, v)` (`20_memory.md` R44): the whole cell replaced, or `OutOfBounds(addr)`. -/
def memWrite (s : State) (addr : Int) (v : Word) : Except Fault State :=
  if s.inBounds addr then .ok (s.setCell addr.toNat v) else .error (.outOfBounds addr)

/-! ### Faults -/

/-- Fault entry (`60_exceptions.md` R169): the latch takes the fault and its information; registers, memory and pc keep
their values. No state is saved, no mode changes, no handler runs, and there is no return (R171). -/
def takeFault (f : Fault) (s : State) : State := { s with fault := some f }

/-- The numeric cause code of a fault (`60_exceptions.md` R167, decision D14). -/
def Fault.code : Fault → Nat
  | .unknownOpcode _ _ => 1
  | .outOfBounds _ => 2
  | .fetchOutOfBounds _ => 3
  | .fetchNonByte _ => 4

/-- The status output of the latch (`60_exceptions.md` R167): 0 when it is clear. -/
def faultCode : Option Fault → Nat
  | none => 0
  | some f => f.code

/-! ### The end of an instruction -/

/-- Advance (`41_fetch_dispatch.md` R128): the pc moves past the instruction, without wrapping. -/
def advance (m : Mnemonic) (s : State) : State := { s with pc := s.pc + ilen m }

/-- How every instruction ends (`41_fetch_dispatch.md` R130): the fault it raised is taken on the state before the step,
or, its write made, the pc advances by the length of its format. -/
def finish (m : Mnemonic) (s : State) (r : Except Fault State) : Host.Outcome State Fault Refusal :=
  match r with
  | .error f => .next (takeFault f s)
  | .ok t => .next (advance m t)

end Sys2Proof.Machine
end

