-- ==== Sys2Proof/Machine/Operands.lean ====
section
/-! DEFINITION. The operand forms of the four instructions (`20_memory.md` R52, `30_encoding.md` R69): a register, a signed
constant, an absolute cell address, and a base register plus a signed offset. -/

namespace Sys2Proof.Machine

/-- A register operand as the signed integer it holds (`00_scope.md` R11). -/
def State.regInt (s : State) (i : RegIdx) : Int := (s.reg i).toInt

/-- A signed constant as the word written to a register, its value kept (`42_instructions.md` R144). -/
def constant (c : Int) : Word := Word.ofInt c

/-- The absolute address of STM and GE (`42_instructions.md` R141, R143). -/
def absoluteAddress (imm : Nat) : Int := imm

/-- The address of LDM: the exact integer sum of the base register and the offset, never wrapping
(`42_instructions.md` R142, R145). -/
def baseOffsetAddress (s : State) (base : RegIdx) (offset : Int) : Int := s.regInt base + offset

end Sys2Proof.Machine
end

