-- ==== Sys2Proof/Machine/Flags.lean ====
section
/-! DEFINITION. The hardware has no flags, no condition codes and no predicate registers (`10_state.md` R28). Its one
truth value is the result of GE, computed here. -/

namespace Sys2Proof.Machine

/-- The result of a comparison as a register value: exactly 1 or exactly 0 (`42_instructions.md` R146). -/
def truthWord (b : Bool) : Word := if b then 1 else 0

/-- `1 if left >= right else 0`, signed (`42_instructions.md` R143, R146). -/
def geResult (left right : Word) : Word := truthWord (decide (right.toInt ≤ left.toInt))

end Sys2Proof.Machine
end

