-- ==== Sys2Proof/Machine/Compare.lean ====
section
/-! DEFINITION. The comparison family: GE. -/

namespace Sys2Proof.Machine

/-- GE (`42_instructions.md` R143): `x[D] <- 1 if x[B] >= MemRead(C, 1) else 0`; both operands are read before the
destination is written (R151). -/
def execGe (b : RegIdx) (c : Nat) (d : RegIdx) (s : State) : Host.Outcome State Fault Refusal :=
  finish .ge s ((memRead s (absoluteAddress c)).map fun v => s.setReg d (geResult (s.reg b) v))

end Sys2Proof.Machine
end

