-- ==== Sys2Proof/Machine/Constants.lean ====
section
/-! DEFINITION. The constant family: LC. -/

namespace Sys2Proof.Machine

/-- LC (`42_instructions.md` R140): `x[B] <- C`. It raises no fault. -/
def execLc (b : RegIdx) (c : Int) (s : State) : Host.Outcome State Fault Refusal :=
  finish .lc s (.ok (s.setReg b (constant c)))

end Sys2Proof.Machine
end

