-- ==== Sys2Proof/Machine/Transfers.lean ====
section
/-! DEFINITION. The memory transfer family: STM and LDM. -/

namespace Sys2Proof.Machine

/-- STM (`42_instructions.md` R141): `MemWrite(B, 1, x[C])`. -/
def execStm (b : Nat) (c : RegIdx) (s : State) : Host.Outcome State Fault Refusal :=
  finish .stm s (memWrite s (absoluteAddress b) (s.reg c))

/-- LDM (`42_instructions.md` R142): `x[C] <- MemRead(x[D] + B, 1)`; the base is read before the destination is written
(R151). -/
def execLdm (b : Int) (c d : RegIdx) (s : State) : Host.Outcome State Fault Refusal :=
  finish .ldm s ((memRead s (baseOffsetAddress s d b)).map fun v => s.setReg c v)

end Sys2Proof.Machine
end

