-- ==== Sys2Proof/Machine/Dispatch.lean ====
section
/-! DEFINITION. One arm per instruction (`41_fetch_dispatch.md` R127). -/

namespace Sys2Proof.Machine

def exec (i : Instr) (s : State) : Host.Outcome State Fault Refusal :=
  match i with
  | .lc b c => Sys2Proof.Machine.execLc b c s
  | .stm b c => Sys2Proof.Machine.execStm b c s
  | .ldm b c d => Sys2Proof.Machine.execLdm b c d s
  | .ge b c d => Sys2Proof.Machine.execGe b c d s

end Sys2Proof.Machine
end

