-- ==== Sys2Proof/Machine/Fetch.lean ====
section
/-! DEFINITION. When a step is taken, and its fetch, dispatch and decode (`41_fetch_dispatch.md` R120 to R126). -/

namespace Sys2Proof.Machine

/-- The Core is running (`41_fetch_dispatch.md` R120): no fault is latched and `pc < L`. -/
def State.running (s : State) : Bool := s.fault.isNone && decide (s.pc < s.progLen)

/-- The opcode nibble `M[pc] mod 16` (`41_fetch_dispatch.md` R121): the floor modulus, of the cell as it is (PRESUMED for a
negative cell: the spec's G1, log entry 6). -/
def opcodeNibble (s : State) : Nat := ((s.cell s.pc).toInt % 16).toNat

/-- The loop and the sum of `FetchBytes` (`20_memory.md` R45): the cells are checked in ascending order, and the lowest
that does not hold 0..255 is the one the fault names. -/
def fetchCells (s : State) (addr : Nat) : Nat → Except Fault Nat
  | 0 => .ok 0
  | k + 1 =>
    let c := (s.cell addr).toInt
    if c < 0 ∨ 255 < c then .error (.fetchNonByte addr)
    else
      match fetchCells s (addr + 1) k with
      | .error f => .error f
      | .ok w => .ok (c.toNat + 2 ^ 8 * w)

/-- `FetchBytes(addr, k)` (`20_memory.md` R45): the bound first, then the bytes. -/
def fetchBytes (s : State) (addr k : Nat) : Except Fault Nat :=
  if s.memSize < addr + k then .error (.fetchOutOfBounds addr) else fetchCells s addr k

/-- Parts 1 to 4 of a step (`41_fetch_dispatch.md` R130): the decoded instruction at the pc, or the first fault in the order
UnknownOpcode, FetchOutOfBounds, FetchNonByte (`60_exceptions.md` R168). Memory is read anew each time (R131). -/
def fetchInstr (s : State) : Except Fault Instr :=
  match formatByOpcode (opcodeNibble s) with
  | none => .error (.unknownOpcode s.pc (opcodeNibble s))
  | some f =>
    match fetchBytes s s.pc f.size with
    | .error e => .error e
    | .ok w => .ok (decodeFormat f w)

/-- What the next step of a state does. -/
inductive Phase where
  /-- The latch holds a fault: no step is taken (`10_state.md` R26). -/
  | faulted (f : Fault)
  /-- `pc >= L`: the run has ended normally, no step is taken and no state changes (`41_fetch_dispatch.md` R129). -/
  | halted
  /-- Fetch or dispatch raises a fault. -/
  | trap (f : Fault)
  /-- The fetched and decoded instruction executes. -/
  | run (i : Instr)
deriving DecidableEq, Repr

/-- The gate of a step (`41_fetch_dispatch.md` R120, R129) and its parts 1 to 4 (R130). -/
def phase (s : State) : Phase :=
  match s.fault with
  | some f => .faulted f
  | none =>
    if s.pc < s.progLen then
      match fetchInstr s with
      | .error f => .trap f
      | .ok i => .run i
    else .halted

end Sys2Proof.Machine
end

