-- ==== Sys2Proof/Machine/Launch.lean ====
section
/-! DEFINITION. The host's side: the load that is part of reset, and reading memory after a run
(`70_reset_and_hazards.md`). -/

namespace Sys2Proof.Machine

/-- Byte `i` of the image goes to cell `addr + i` (`70_reset_and_hazards.md` R192). -/
def loadBytes (addr : Nat) : List Byte → Memory → Memory
  | [], m => m
  | b :: bs, m => loadBytes (addr + 1) bs (m.write addr (Word.ofByte b))

/-- Reset and load (`10_state.md` R32, `70_reset_and_hazards.md` R191, R192): fresh registers and memory, the image at
address 0, `L` its length. An image longer than the memory is refused (R194, decision D19; log entry 14). -/
def launch (memSize : Nat) (image : List Byte) : Host.Outcome State Fault Refusal :=
  if image.length ≤ memSize then
    .next { State.reset with mem := loadBytes 0 image [], progLen := image.length, memSize := memSize }
  else .refused (.imageTooLong image.length memSize)

/-- The address and value rows of the inclusive range `lo .. hi`, cells the memory has (`70_reset_and_hazards.md` R198). -/
def State.dump (s : State) (lo hi : Nat) : List (Nat × Int) :=
  ((List.range (hi + 1)).filter fun a => decide (lo ≤ a) && decide (a < s.memSize)).map fun a => (a, (s.cell a).toInt)

end Sys2Proof.Machine
end

