-- ==== Sys2Proof/Machine/Step.lean ====
section
/-! DEFINITION. The step of the Core (`41_fetch_dispatch.md` R130), and the load of one instruction at the pc for the
host's questions. -/

namespace Sys2Proof.Machine

/-- One step (`41_fetch_dispatch.md` R130). A faulted Core takes no step: the answer is its latched fault (log entry 4). A
halted Core takes no step and keeps its state (log entry 5). A fault of fetch is taken by the shared fault entry. -/
def step (s : State) : Host.Outcome State Fault Refusal :=
  match phase s with
  | .faulted f => .fault f
  | .halted => .next s
  | .trap f => .next (takeFault f s)
  | .run i => exec i s

/-- The state with the instruction whose bits are `w` stored at the pc, so that the next step runs it (log entry 8): its
five bytes in memory, a program and a memory long enough to hold it, and the latch clear. -/
def State.withFetchWord (s : State) (nbits w : Nat) : State :=
  { s with
    mem := loadBytes s.pc (tableBytes nbits w) s.mem
    progLen := max s.progLen (s.pc + max 1 ((nbits + 7) / 8))
    memSize := max s.memSize (s.pc + 5)
    fault := none }

end Sys2Proof.Machine
end

