-- ==== Sys2Proof/Machine/Assembler.lean ====
section
/-! DEFINITION. The assembler's text front end (`30_encoding.md` R76 to R88). The spec's scope file leaves it out of the
hardware (`00_scope.md` R4(c)) and specifies it all the same; it ends in the Encoder. Text is a list of characters. -/

namespace Sys2Proof.Machine

/-- The errors of the assembler, each with its 1-based source line (`60_exceptions.md` R165, R166). -/
inductive AsmError where
  /-- `SyntaxError`, kind `UnknownMnemonic(line, token)` (R79). -/
  | unknownMnemonic (line : Nat) (token : List Char)
  /-- `SyntaxError`, kind `ArityError(line)` (R80). -/
  | arity (line : Nat)
  /-- `SyntaxError`, kind `BadOperand(line, token)` (R84, decision D18). -/
  | badOperand (line : Nat) (token : List Char)
  /-- `FieldOverflow(field, value, width)` with the line number (R85). -/
  | fieldOverflow (line : Nat) (field : FieldName) (value : Int) (width : Nat)
deriving DecidableEq, Repr

/-! ### Lines, comments, tokens -/

/-- The lines of a text (`30_encoding.md` R76): one instruction per line. -/
def splitLines : List Char → List (List Char)
  | [] => [[]]
  | c :: cs =>
    if c = '\n' then [] :: splitLines cs
    else
      match splitLines cs with
      | [] => [[c]]
      | l :: ls => (c :: l) :: ls

/-- A comment runs from the first `;` or `#` to the end of the line (`30_encoding.md` R77). -/
def stripComment (line : List Char) : List Char := line.takeWhile fun c => c != ';' && c != '#'

/-- White space within a line (`30_encoding.md` R77, R78; that the carriage return is white space besides space and tab is a
DESIGN CHOICE, log entry 12). -/
def isWhiteSpace (c : Char) : Bool := c == ' ' || c == '\t' || c == '\r'

/-- A blank line: nothing is left after the comment and the surrounding white space are stripped (`30_encoding.md` R77). A
line of commas is not blank. -/
def isBlankLine (line : List Char) : Bool := (stripComment line).all isWhiteSpace

/-- What separates tokens: white space and commas (`30_encoding.md` R78). -/
def isSeparator (c : Char) : Bool := isWhiteSpace c || c == ','

/-- The tokens of a line, none of them empty (`30_encoding.md` R78): `current` is the token being read, reversed. -/
def tokensFrom (current : List Char) : List Char → List (List Char)
  | [] => if current.isEmpty then [] else [current.reverse]
  | c :: cs =>
    if isSeparator c then
      if current.isEmpty then tokensFrom [] cs else current.reverse :: tokensFrom [] cs
    else tokensFrom (c :: current) cs

/-- The tokens of a source line, its comment stripped (`30_encoding.md` R77, R78). -/
def lineTokens (line : List Char) : List (List Char) := tokensFrom [] (stripComment line)

/-! ### Mnemonics -/

/-- The eight spellings (`30_encoding.md` R79). -/
def spellings : List (List Char × Mnemonic) :=
  [(['L', 'C'], .lc), (['L', 'O', 'A', 'D', '_', 'C', 'O', 'N', 'S', 'T'], .lc),
   (['S', 'T', 'M'], .stm), (['S', 'T', 'O', 'R', 'E', '_', 'M', 'E', 'M'], .stm),
   (['L', 'D', 'M'], .ldm), (['L', 'O', 'A', 'D', '_', 'M', 'E', 'M'], .ldm),
   (['G', 'E'], .ge), (['C', 'M', 'P', '_', 'G', 'E'], .ge)]

/-- The canonical mnemonic of a token, compared case-insensitively (`30_encoding.md` R79). -/
def mnemonicOf (token : List Char) : Option Mnemonic := spellings.lookup (token.map Char.toUpper)

/-- The fields in the order the source text writes their operands (`30_encoding.md` R81 to R83). -/
def operandOrder : Mnemonic → List FieldName
  | .lc => [.B, .C]
  | .stm => [.B, .C]
  | .ldm => [.C, .D, .B]
  | .ge => [.D, .B, .C]

/-! ### Operands -/

/-- The value of a decimal digit. -/
def decimalDigit (c : Char) : Option Nat :=
  if 48 ≤ c.toNat ∧ c.toNat ≤ 57 then some (c.toNat - 48) else none

/-- The value of a hexadecimal digit of either case. -/
def hexDigit (c : Char) : Option Nat :=
  if 48 ≤ c.toNat ∧ c.toNat ≤ 57 then some (c.toNat - 48)
  else if 65 ≤ c.toNat ∧ c.toNat ≤ 70 then some (c.toNat - 55)
  else if 97 ≤ c.toNat ∧ c.toNat ≤ 102 then some (c.toNat - 87)
  else none

/-- The value of a run of digits after `acc`; none if a character is no digit. -/
def digitsFrom (digit : Char → Option Nat) (base acc : Nat) : List Char → Option Nat
  | [] => some acc
  | c :: cs =>
    match digit c with
    | none => none
    | some d => digitsFrom digit base (base * acc + d) cs

/-- The value of a run of at least one digit. -/
def digits (digit : Char → Option Nat) (base : Nat) (cs : List Char) : Option Nat :=
  if cs.isEmpty then none else digitsFrom digit base 0 cs

/-- An unsigned number: `0x` or `0X` and hexadecimal digits, or decimal digits (`30_encoding.md` R84). -/
def parseMagnitude : List Char → Option Nat
  | '0' :: 'x' :: cs => digits hexDigit 16 cs
  | '0' :: 'X' :: cs => digits hexDigit 16 cs
  | cs => digits decimalDigit 10 cs

/-- A number with an optional leading minus sign; a leading plus sign is refused (`30_encoding.md` R84, decision D18). -/
def parseInt : List Char → Option Int
  | '-' :: cs => (parseMagnitude cs).map fun n => -(n : Int)
  | cs => (parseMagnitude cs).map fun n => (n : Int)

/-- A register operand: an optional leading `r` or `R`, then a number (`30_encoding.md` R84). -/
def parseReg : List Char → Option Int
  | 'r' :: cs => parseInt cs
  | 'R' :: cs => parseInt cs
  | cs => parseInt cs

/-- An operand, by the kind of the field it is assigned to after reordering (`30_encoding.md` R84). -/
def parseOperand (kind : FieldKind) (token : List Char) : Option Int :=
  match kind with
  | .reg => parseReg token
  | .imm => parseInt token
  | .simm => parseInt token

/-- The values of the fields in table order, from the operands by field; the first that does not parse is reported
(log entry 12). -/
def resolveFields (line : Nat) (operands : List (FieldName × List Char)) : List Field → Except AsmError (List Int)
  | [] => .ok []
  | f :: fs =>
    match parseOperand f.kind ((operands.lookup f.name).getD []) with
    | none => .error (.badOperand line ((operands.lookup f.name).getD []))
    | some v =>
      match resolveFields line operands fs with
      | .error e => .error e
      | .ok vs => .ok (v :: vs)

/-! ### Lines and files -/

/-- The mnemonic and field values of a tokenised line (`30_encoding.md` R79 to R84). -/
def resolveTokens (line : Nat) (mnemonic : List Char) (operands : List (List Char)) :
    Except AsmError (Mnemonic × List Int) :=
  match mnemonicOf mnemonic with
  | none => .error (.unknownMnemonic line mnemonic)
  | some m =>
    if operands.length = (formatOf m).fields.length then
      match resolveFields line ((operandOrder m).zip operands) (formatOf m).fields with
      | .error e => .error e
      | .ok vs => .ok (m, vs)
    else .error (.arity line)

/-- The error of the Encoder with the line number, the one thing the assembler adds (`30_encoding.md` R85). The arity check
comes first, so `valueCount` does not reach it (log entry 11). -/
def lineError (line : Nat) : EncodeError → AsmError
  | .fieldOverflow f v n => .fieldOverflow line f v n
  | .valueCount => .arity line

/-- The mnemonic and field values of a line that is not blank (`30_encoding.md` R78 to R84, R88). Where it has no token at
all, being a line of commas, no token is one of the spellings, and `UnknownMnemonic` names the empty one (DESIGN CHOICE, log
entry 12). -/
def resolveLine (line : Nat) (text : List Char) : Except AsmError (Mnemonic × List Int) :=
  match lineTokens text with
  | [] => .error (.unknownMnemonic line [])
  | mnemonic :: operands => resolveTokens line mnemonic operands

/-- The bytes of one source line (`30_encoding.md` R76 to R88): none for a blank line, and else exactly one
instruction's. -/
def assembleLine (line : Nat) (text : List Char) : Except AsmError (List Byte) :=
  if isBlankLine text then .ok []
  else
    match resolveLine line text with
    | .error e => .error e
    | .ok (m, vs) =>
      match encodeFields m vs with
      | .error e => .error (lineError line e)
      | .ok bs => .ok bs

/-- The bytes of a list of lines numbered from `line` (`30_encoding.md` R87): the first error aborts the whole file. -/
def assembleLines (line : Nat) : List (List Char) → Except AsmError (List Byte)
  | [] => .ok []
  | text :: rest =>
    match assembleLine line text with
    | .error e => .error e
    | .ok bs =>
      match assembleLines (line + 1) rest with
      | .error e => .error e
      | .ok image => .ok (bs ++ image)

/-- The binary image of a source text (`30_encoding.md` R87). -/
def assemble (source : List Char) : Except AsmError (List Byte) := assembleLines 1 (splitLines source)

end Sys2Proof.Machine
end

