-- ==== Sys2Proof/Safety.lean ====
section
/-! DEFINITION. The terms claims are stated in: halted and faulted, the invariants of the machine, runs, and what a step
leaves unchanged. -/

namespace Sys2Proof.Machine

/-- The run has ended normally (`41_fetch_dispatch.md` R129(a)). -/
def State.halted (s : State) : Prop := s.fault = none ∧ s.progLen ≤ s.pc

/-- The run has ended in a fault (`41_fetch_dispatch.md` R129(b)). -/
def State.faulted (s : State) : Prop := s.fault ≠ none

/-- The memory is in canonical form and lists no address the machine does not have (`20_memory.md` R42). -/
def State.memOk (s : State) : Prop := s.mem.wf = true ∧ s.mem.below s.memSize = true

/-- The program fits the memory, and the pc is at most 4 past its end (`10_state.md` R24, `70_reset_and_hazards.md` R193). -/
def State.boundsOk (s : State) : Prop := s.progLen ≤ s.memSize ∧ s.pc ≤ s.progLen + 4

/-- What the latch may hold at this pc and in this memory (`60_exceptions.md` R161 to R164). -/
def Fault.recordsOk (s : State) : Fault → Prop
  | .unknownOpcode pc nibble => pc = s.pc ∧ nibble < 16 ∧ formatByOpcode nibble = none
  | .outOfBounds address => address < 0 ∨ (s.memSize : Int) ≤ address
  | .fetchOutOfBounds pc => pc = s.pc ∧ s.memSize < pc + 5
  | .fetchNonByte address => s.pc ≤ address ∧ address < s.pc + 5 ∧ address < s.memSize ∧
      ((s.cell address).toInt < 0 ∨ 255 < (s.cell address).toInt)

/-- The latch is clear or holds a fault that its own rule allows. -/
def State.latchOk (s : State) : Prop := ∀ f, s.fault = some f → f.recordsOk s

/-- The invariant of the machine. -/
structure State.Inv (s : State) : Prop where
  mem : s.memOk
  bounds : s.boundsOk
  latch : s.latchOk

/-- A value a 20-bit signed field can hold (`42_instructions.md` R148). -/
abbrev fitsConstant (v : Word) : Prop := -524288 ≤ v.toInt ∧ v.toInt ≤ 524287

/-- Every register and every cell holds a value of 20 signed bits (`42_instructions.md` R148). -/
def State.valuesFit (s : State) : Prop := (∀ i : RegIdx, fitsConstant (s.reg i)) ∧ ∀ a : Nat, fitsConstant (s.cell a)

/-- A cell that holds an instruction byte (`20_memory.md` R45). -/
abbrev isByte (v : Word) : Prop := 0 ≤ v.toInt ∧ v.toInt ≤ 255

/-- The values `pack` accepts for a slot of `n` bits (`40_codec.md` R91). -/
abbrev accepted (n : Nat) (v : Int) : Prop := -(2 ^ (n - 1)) ≤ v ∧ v ≤ 2 ^ n - 1

/-- The canonical value with the same `n` low bits as an accepted value (`40_codec.md` R106). -/
def canonicalValue (f : Field) (v : Int) : Int :=
  match f.kind with
  | .simm => if 2 ^ (f.width - 1) ≤ v then v - 2 ^ f.width else v
  | .reg => if v < 0 then v + 2 ^ f.width else v
  | .imm => if v < 0 then v + 2 ^ f.width else v

/-! ### Frames -/

/-- No register differs. -/
def sameRegs (s t : State) : Prop := ∀ i : RegIdx, t.reg i = s.reg i

/-- No register but `d` differs. -/
def sameRegsExcept (d : RegIdx) (s t : State) : Prop := ∀ i : RegIdx, i ≠ d → t.reg i = s.reg i

/-- No cell differs, at any address. -/
def sameCells (s t : State) : Prop := ∀ a : Nat, t.cell a = s.cell a

/-- The program length, the memory size and the fault latch do not differ. -/
def sameControl (s t : State) : Prop := t.progLen = s.progLen ∧ t.memSize = s.memSize ∧ t.fault = s.fault

/-! ### Runs -/

/-- `k` steps from `s`, the host's own loop. -/
def runSteps (k : Nat) (s : State) : Host.Outcome State Fault Refusal := Sys2Proof.core.run k s

/-- `k` is at least the number of steps the rest of the program can take, `ceil((L - pc)/3)`
(`41_fetch_dispatch.md` R129). -/
def enoughSteps (s : State) (k : Nat) : Prop := s.progLen ≤ s.pc + 3 * k

end Sys2Proof.Machine
end

