-- ==== Sys2Proof/Certificates/Slice0/Obligations.lean ====
section
/-! DEFINITION. The statements for the provers. -/

open Sys2Proof Sys2Proof.Machine

/-! ### Codec, format table, decoder, encoder -/

/-- A sanity statement: words written out bit by bit from the layouts of `30_encoding.md` section 2 decode to the
instruction each stands for, the low nibble 7 to none. -/
def Obligations.WrittenOutWordsDecode : Prop :=
  decodeBytes [0x30, 0xD8, 0xFF, 0x7F] = .ok (.lc 3 (-5), []) ∧
  decodeBytes [0xF0, 0x07, 0x00, 0x40] = .ok (.lc 127 (-524288), []) ∧
  decodeBytes [0x49, 0xC6, 0x00] = .ok (.stm 100 3, []) ∧
  decodeBytes [0xF9, 0xFF, 0x1F] = .ok (.stm 1023 127, []) ∧
  decodeBytes [0x8D, 0x00, 0x28, 0x08, 0x00] = .ok (.ldm 8 5 2, []) ∧
  decodeBytes [0x0D, 0x00, 0xFC, 0xFF, 0x01] = .ok (.ldm (-16384) 127 127, []) ∧
  decodeBytes [0x2F, 0x90, 0x21, 0x00] = .ok (.ge 2 50 1, []) ∧
  decodeBytes [0xEF, 0xFF, 0x7F, 0x0F] = .ok (.ge 126 1023 123, []) ∧
  decodeBytes [0x57, 0x00, 0x00, 0x00, 0x00] = .error (.unknownOpcode 7)

/-- Decode and encode agree: the bytes of a well-formed instruction, with any bytes after them, decode to that
instruction and leave those bytes (`40_codec.md` section 4). -/
def Obligations.DecodeInvertsEncode : Prop :=
  ∀ (i : Instr) (rest : List Byte), i.wf = true →
    ∃ bs, encode i = .ok bs ∧ bs.length = ilen i.mnemonic ∧ decodeBytes (bs ++ rest) = .ok (i, rest)

/-- What the Encoder accepts comes back as the canonical value with the same low bits, and a list of canonical values comes
back unchanged (`40_codec.md` section 4, inferences the spec marks as its own; the accepted interval is decision D7). -/
def Obligations.AcceptedValuesRoundTrip : Prop :=
  ∀ (m : Mnemonic) (vals : List Int),
    List.Forall₂ (fun f v => accepted f.width v) (formatOf m).fields vals →
      ∃ bs i, encodeFields m vals = .ok bs ∧ decodeBytes bs = .ok (i, []) ∧ i.mnemonic = m ∧
        i.values = List.zipWith canonicalValue (formatOf m).fields vals ∧
        (List.Forall₂ (fun f v => f.canonical v = true) (formatOf m).fields vals → i.values = vals)

/-- Decoding a word and encoding again gives the word with its unused bits cleared, and the same word exactly when they
were clear (`40_codec.md` section 4, an inference the spec marks as its own). -/
def Obligations.ReencodingClearsUnusedBits : Prop :=
  ∀ (w : Nat) (i : Instr), decodeWord w = some i → w < 2 ^ (8 * ilen i.mnemonic) →
    i.word = .ok (w &&& usedMask (formatOf i.mnemonic)) ∧
    (i.word = .ok w ↔ w &&& usedMask (formatOf i.mnemonic) = w)

/-- The decoder does not look at the unused bits (`30_encoding.md` section 4, decision D12). -/
def Obligations.UnusedBitsAreIgnored : Prop :=
  ∀ (w : Nat) (f : Format), formatByOpcode (w % 16) = some f → decodeWord (w &&& usedMask f) = decodeWord w

/-- The Encoder writes every unused bit 0, so the word ends where its last field ends (`40_codec.md` section 2, an
inference the spec marks as its own). -/
def Obligations.EncoderWritesUnusedBitsZero : Prop :=
  ∀ (m : Mnemonic) (vals : List Int) (w : Nat), encodeWord m vals = .ok w →
    w &&& usedMask (formatOf m) = w ∧
    w < 2 ^ (match m with | .lc => 31 | .stm => 21 | .ldm => 33 | .ge => 28)

/-- The first byte of every encoding carries the opcode in its low nibble, whatever the field values
(`40_codec.md` section 4, `95_test_vectors.md` S3). -/
def Obligations.OpcodeNibbleIsIsolated : Prop :=
  ∀ (m : Mnemonic) (vals : List Int) (bs : List Byte), encodeFields m vals = .ok bs →
    bs.length = ilen m ∧ ∃ b rest, bs = b :: rest ∧ b.toNat % 16 = (formatOf m).opcode

/-- The Encoder succeeds exactly when there is one accepted value per field (`40_codec.md` sections 1 and 2; the accepted
interval is decision D7, the count of values log entry 11). -/
def Obligations.EncoderSucceedsExactlyOnAcceptedValues : Prop :=
  ∀ (m : Mnemonic) (vals : List Int),
    (∃ bs, encodeFields m vals = .ok bs) ↔ List.Forall₂ (fun f v => accepted f.width v) (formatOf m).fields vals

/-- `FieldOverflow` names the first field in table order whose value is out of range (`40_codec.md` section 2; the order is
decision D17, log entry 17, the accepted interval decision D7, log entry 10). -/
def Obligations.EncoderNamesTheFirstBadField : Prop :=
  ∀ (m : Mnemonic) (vals : List Int) (name : FieldName) (v : Int) (n : Nat),
    vals.length = (formatOf m).fields.length →
    (encodeWord m vals = .error (.fieldOverflow name v n) ↔
      ∃ (j : Nat) (f : Field), (formatOf m).fields[j]? = some f ∧ vals[j]? = some v ∧ f.name = name ∧ f.width = n ∧
        ¬ accepted n v ∧
        ∀ k < j, ∀ (g : Field) (u : Int), (formatOf m).fields[k]? = some g → vals[k]? = some u → accepted g.width u)

/-- A packed value is the value modulo `2^n`, and what each unpack makes of it (`40_codec.md` section 1, inferences the
spec marks as its own). That `pack` succeeds on accepted values alone, on which the clauses on unpack rest, is decision D7
(log entry 10). -/
def Obligations.UnpackAfterPack : Prop :=
  ∀ (v : Int) (n p : Nat), 1 ≤ n → pack v n = .ok p →
    accepted n v ∧ (p : Int) = v % 2 ^ n ∧
    unpackSigned p n = (if v < 2 ^ (n - 1) then v else v - 2 ^ n) ∧
    unpackUnsigned p n = (if 0 ≤ v then v else v + 2 ^ n)

/-- `unpack_signed` is sign extension: the two's-complement value of the slot (`40_codec.md` R93). -/
def Obligations.UnpackSignedIsSignExtension : Prop :=
  (∀ raw n : Nat, 1 ≤ n → raw < 2 ^ n →
    unpackSigned raw n = (BitVec.ofNat n raw).toInt ∧
    (2 ^ (n - 1) ≤ raw → unpackSigned raw n = (raw : Int) - 2 ^ n) ∧
    (raw < 2 ^ (n - 1) → unpackSigned raw n = raw) ∧
    -(2 ^ (n - 1)) ≤ unpackSigned raw n ∧ unpackSigned raw n ≤ 2 ^ (n - 1) - 1) ∧
  unpackSigned 1048571 20 = -5

/-- What `decode_word` reads, spelled out per format as slices of the word (`40_codec.md` R108, `30_encoding.md` R69). -/
def Obligations.DecodeWordReadsTheSlices : Prop :=
  ∀ x : BitVec 40,
    (x.extractLsb 3 0 = 0 → decodeWord x.toNat =
      some (.lc (x.extractLsb 10 4).toFin (x.extractLsb 30 11).toInt)) ∧
    (x.extractLsb 3 0 = 9 → decodeWord x.toNat =
      some (.stm (x.extractLsb 13 4).toNat (x.extractLsb 20 14).toFin)) ∧
    (x.extractLsb 3 0 = 13 → decodeWord x.toNat =
      some (.ldm (x.extractLsb 18 4).toInt (x.extractLsb 25 19).toFin (x.extractLsb 32 26).toFin)) ∧
    (x.extractLsb 3 0 = 15 → decodeWord x.toNat =
      some (.ge (x.extractLsb 10 4).toFin (x.extractLsb 20 11).toNat (x.extractLsb 27 21).toFin)) ∧
    decodeWord 0x0828008D = some (.ldm 8 5 2)

/-- Decoding fails exactly on an undefined opcode, and what it gives is well formed and of the opcode's mnemonic
(`40_codec.md` section 3, an inference the spec marks as its own). -/
def Obligations.DecodedInstructionsAreWellFormed : Prop :=
  ∀ w : Nat,
    (formatByOpcode (w % 16) = none → decodeWord w = none) ∧
    ∀ f, formatByOpcode (w % 16) = some f → ∃ i, decodeWord w = some i ∧ i.wf = true ∧ i.mnemonic = f.mnemonic

/-- The invariants of the Instruction Format Table (`30_encoding.md` R67). -/
def Obligations.FormatTableInvariants : Prop :=
  (∀ f ∈ instrFormats,
    (∀ fd ∈ f.fields, 4 ≤ fd.offset ∧ ((2 ^ fd.width - 1) <<< fd.offset) &&& 0xF = 0) ∧
    f.fields.Pairwise (fun a b => a.offset + a.width ≤ b.offset ∧
      ((2 ^ a.width - 1) <<< a.offset) &&& ((2 ^ b.width - 1) <<< b.offset) = 0) ∧
    ∃ fd, f.fields.getLast? = some fd ∧ f.size = (fd.offset + fd.width + 7) / 8) ∧
  instrFormats.map (fun f => f.fields.getLast?.map fun fd => fd.offset + fd.width) = [some 31, some 21, some 33, some 28] ∧
  instrFormats.map usedMask = [0x7FFFFFFF, 0x1FFFFF, 0x1FFFFFFFF, 0x0FFFFFFF]

/-- The opcode map: what each of the sixteen values of the nibble selects, and that nothing else selects
(`30_encoding.md` R70). -/
def Obligations.OpcodeMap : Prop :=
  formatByOpcode 0 = some (formatOf .lc) ∧ ilen .lc = 4 ∧
  formatByOpcode 9 = some (formatOf .stm) ∧ ilen .stm = 3 ∧
  formatByOpcode 13 = some (formatOf .ldm) ∧ ilen .ldm = 5 ∧
  formatByOpcode 15 = some (formatOf .ge) ∧ ilen .ge = 4 ∧
  (∀ a ∈ [1, 2, 3, 4, 5, 6, 7, 8, 10, 11, 12, 14], formatByOpcode a = none) ∧
  ∀ w i, decodeWord w = some i → formatByOpcode (w % 16) = some (formatOf i.mnemonic)

/-- `serialize`: the bytes of a word, the least significant first (`40_codec.md` R102). -/
def Obligations.SerializedBytes : Prop :=
  (∀ w k : Nat, w < 2 ^ (8 * k) →
    (serialize w k).length = k ∧ ∀ i < k, (serialize w k)[i]? = some (BitVec.ofNat 8 ((w >>> (8 * i)) &&& 0xFF))) ∧
  (∀ (m : Mnemonic) (vals : List Int) (w : Nat), encodeWord m vals = .ok w → w < 2 ^ (8 * ilen m)) ∧
  serialize 0x7FFFD830 4 = [0x30, 0xD8, 0xFF, 0x7F]

/-- `deserialize`: the sum of the bytes by weight, the inverse of `serialize`, and the sum that fetch returns
(`40_codec.md` R107). -/
def Obligations.DeserializeSumsTheBytes : Prop :=
  (∀ bs : List Byte, deserialize bs = ∑ i ∈ Finset.range bs.length, (bs.getD i 0).toNat * 2 ^ (8 * i)) ∧
  (∀ w k : Nat, w < 2 ^ (8 * k) → deserialize (serialize w k) = w) ∧
  ∀ (s : State) (addr k w : Nat), fetchBytes s addr k = .ok w →
    (w : Int) = ∑ i ∈ Finset.range k, (s.cell (addr + i)).toInt * 2 ^ (8 * i)

/-- The low nibble of the first byte alone tells the length (`30_encoding.md` R73). -/
def Obligations.LengthComesFromTheFirstNibble : Prop :=
  ∀ (b : Byte) (bs : List Byte) (i : Instr) (rest : List Byte), decodeBytes (b :: bs) = .ok (i, rest) →
    formatByOpcode (b.toNat % 16) = some (formatOf i.mnemonic) ∧
    ilen i.mnemonic ≤ (b :: bs).length ∧ rest = (b :: bs).drop (ilen i.mnemonic)

/-- An image is the concatenation of the encodings, in order, and there is none if an instruction fails
(`40_codec.md` R104). -/
def Obligations.ImageConcatenatesEncodings : Prop :=
  encodeImage [] = .ok [] ∧
  (∀ m vals, encodeImage [(m, vals)] = encodeFields m vals) ∧
  (∀ xs ys a b, encodeImage xs = .ok a → encodeImage ys = .ok b → encodeImage (xs ++ ys) = .ok (a ++ b)) ∧
  ∀ xs m vals e, (m, vals) ∈ xs → encodeFields m vals = .error e → ∀ image, encodeImage xs ≠ .ok image

/-! ### The four instructions -/

/-- LC completes in every state, with its whole effect, and nothing else (`42_instructions.md` R140). -/
def Obligations.LcLoadsItsConstant : Prop :=
  (∀ (b : RegIdx) (c : Int) (s : State), signedFits 20 c = true →
    ∃ t, exec (.lc b c) s = .next t ∧ (t.reg b).toInt = c ∧
      sameRegsExcept b s t ∧ sameCells s t ∧ t.pc = s.pc + 4 ∧ sameControl s t) ∧
  (∀ w b c, decodeWord w = some (.lc b c) → w % 16 = 0 ∧ signedFits 20 c = true) ∧
  decodeBytes [0x30, 0xD8, 0xFF, 0x7F] = .ok (.lc 3 (-5), []) ∧
  mnemonicOf ['L', 'C'] = some .lc ∧
  mnemonicOf ['L', 'O', 'A', 'D', '_', 'C', 'O', 'N', 'S', 'T'] = some .lc ∧ operandOrder .lc = [.B, .C]

/-- STM with an address the machine has completes: the cell takes the whole register, every other cell, every register
and the latch keep their values (`42_instructions.md` section 1, STM). -/
def Obligations.StmStoresTheWholeRegister : Prop :=
  ∀ (b : Nat) (c : RegIdx) (s : State), s.mem.wf = true → b < s.memSize →
    ∃ t, exec (.stm b c) s = .next t ∧ t.cell b = s.reg c ∧
      (∀ a : Nat, (a : Int) ≠ absoluteAddress b → t.cell a = s.cell a) ∧
      sameRegs s t ∧ t.pc = s.pc + 3 ∧ sameControl s t

/-- LDM with an address the machine has completes: the destination takes the whole cell at the exact sum of base and
offset, every other register, every cell and the latch keep their values (`42_instructions.md` section 1, LDM; decision
D20 for the exact sum). -/
def Obligations.LdmLoadsTheWholeCell : Prop :=
  ∀ (b : Int) (c d : RegIdx) (s : State), 0 ≤ (s.reg d).toInt + b → (s.reg d).toInt + b < s.memSize →
    ∃ t, exec (.ldm b c d) s = .next t ∧ t.reg c = s.cell ((s.reg d).toInt + b).toNat ∧
      sameRegsExcept c s t ∧ sameCells s t ∧ t.pc = s.pc + 5 ∧ sameControl s t

/-- GE with an address the machine has completes: a signed comparison whose result is exactly 1 or exactly 0
(`42_instructions.md` R146), every other register, every cell and the latch unchanged. -/
def Obligations.GeComparesSigned : Prop :=
  ∀ (b : RegIdx) (c : Nat) (d : RegIdx) (s : State), c < s.memSize →
    ∃ t, exec (.ge b c d) s = .next t ∧
      (t.reg d).toInt = (if (s.reg b).toInt ≥ (s.cell c).toInt then 1 else 0) ∧
      sameRegsExcept d s t ∧ sameCells s t ∧ t.pc = s.pc + 4 ∧ sameControl s t

/-- Where STM, LDM and GE trap: an address outside `[0, MEM_SIZE)` latches `OutOfBounds` of that address and changes
nothing else (`42_instructions.md` section 1, `60_exceptions.md` sections 2 and 6; decision D8 for STM and GE, decision
D13 and log entry 4 for the latch and the next state). -/
def Obligations.OutOfBoundsAccessTraps : Prop :=
  (∀ (b : Nat) (c : RegIdx) (s : State), s.memSize ≤ b →
    exec (.stm b c) s = .next { s with fault := some (.outOfBounds b) }) ∧
  (∀ (b : Int) (c d : RegIdx) (s : State), ((s.reg d).toInt + b < 0 ∨ (s.memSize : Int) ≤ (s.reg d).toInt + b) →
    exec (.ldm b c d) s = .next { s with fault := some (.outOfBounds ((s.reg d).toInt + b)) }) ∧
  ∀ (b : RegIdx) (c : Nat) (d : RegIdx) (s : State), s.memSize ≤ c →
    exec (.ge b c d) s = .next { s with fault := some (.outOfBounds c) }

/-- A stored value loads back unchanged, whatever it is (`42_instructions.md` R152). -/
def Obligations.StoredValueLoadsBack : Prop :=
  ∀ (s : State) (b : Nat) (c d e : RegIdx) (o : Int), s.mem.wf = true → b < s.memSize → (s.reg d).toInt + o = b →
    ∃ t u, exec (.stm b c) s = .next t ∧ exec (.ldm o e d) t = .next u ∧
      t.cell b = s.reg c ∧ u.reg e = s.reg c

/-! ### The step -/

/-- A step runs the decoded instruction: where the Core is running and the cells at the pc hold bytes that decode to an
instruction, all of it in memory, the step is that instruction's `exec`, which moves the pc itself. -/
def Obligations.StepRunsTheDecodedInstruction : Prop :=
  ∀ (s : State) (bs : List Byte) (i : Instr) (rest : List Byte), s.running = true →
    decodeBytes bs = .ok (i, rest) →
    (∀ j < ilen i.mnemonic, s.cell (s.pc + j) = Word.ofByte (bs.getD j 0)) →
    s.pc + ilen i.mnemonic ≤ s.memSize →
    step s = exec i s

/-- The faults of fetch in their order, and that without one an instruction of the nibble's format executes
(`41_fetch_dispatch.md` section 2, `60_exceptions.md` section 5; decisions D9, D10, D13, D15 and log entry 4). -/
def Obligations.FetchFaultsInOrder : Prop :=
  ∀ (s : State) (nib : Nat), s.running = true → nib = ((s.cell s.pc).toInt % 16).toNat →
    (formatByOpcode nib = none → step s = .next { s with fault := some (.unknownOpcode s.pc nib) }) ∧
    ∀ f, formatByOpcode nib = some f →
      (s.memSize < s.pc + f.size → step s = .next { s with fault := some (.fetchOutOfBounds s.pc) }) ∧
      (s.pc + f.size ≤ s.memSize →
        (∀ j < f.size, ¬ isByte (s.cell (s.pc + j)) → (∀ k < j, isByte (s.cell (s.pc + k))) →
          step s = .next { s with fault := some (.fetchNonByte (s.pc + j)) }) ∧
        ((∀ j < f.size, isByte (s.cell (s.pc + j))) →
          ∃ i, i.mnemonic = f.mnemonic ∧ i.wf = true ∧ fetchInstr s = .ok i ∧ step s = exec i s))

/-- A step that raises a fault changes the latch and nothing else, and the Core then takes no further step: it answers the
latched fault (`60_exceptions.md` section 6, decision D13; log entry 4). -/
def Obligations.FaultEntryKeepsEverythingElse : Prop :=
  ∀ s t : State, s.fault = none → step s = .next t → t.fault ≠ none →
    ∃ f, t = { s with fault := some f } ∧ step t = .fault f

/-- The end of a run is final: a halted Core keeps its state for any number of steps, a faulted one answers its fault
(`41_fetch_dispatch.md` section 4; log entries 4 and 5). -/
def Obligations.EndedRunsStayEnded : Prop :=
  (∀ (s : State) (k : Nat), s.halted → runSteps k s = .next s) ∧
  ∀ (s : State) (k : Nat) (f : Fault), s.fault = some f → runSteps (k + 1) s = .fault f

/-- The advance: after an instruction that raised no fault the pc has moved by the length the table gave at dispatch
(`41_fetch_dispatch.md` R128). -/
def Obligations.PcAdvancesByTheDispatchedLength : Prop :=
  (∀ s t : State, s.running = true → step s = .next t → t.fault = none →
    ∃ i, fetchInstr s = .ok i ∧ formatByOpcode (opcodeNibble s) = some (formatOf i.mnemonic) ∧
      t.pc = s.pc + ilen i.mnemonic) ∧
  ilen .lc = 4 ∧ ilen .stm = 3 ∧ ilen .ldm = 5 ∧ ilen .ge = 4

/-- The program length is set at load, kept by every step, and read by the run condition alone: neither fetch nor an
instruction depends on it (`10_state.md` R25). -/
def Obligations.ProgramLengthIsConstant : Prop :=
  (∀ memSize image s, launch memSize image = .next s → s.progLen = image.length) ∧
  (∀ s t : State, step s = .next t → t.progLen = s.progLen) ∧
  (∀ (s : State) (n : Nat), fetchInstr { s with progLen := n } = fetchInstr s) ∧
  ∀ (i : Instr) (s t : State) (n : Nat), exec i s = .next t →
    exec i { s with progLen := n } = .next { t with progLen := n }

/-- Nothing is remembered between fetches: what is fetched is decided by the pc, the memory size and the cells at the pc
(`41_fetch_dispatch.md` R131). -/
def Obligations.FetchReadsMemoryAnew : Prop :=
  ∀ s t : State, t.pc = s.pc → t.memSize = s.memSize → (∀ j < 5, t.cell (s.pc + j) = s.cell (s.pc + j)) →
    fetchInstr t = fetchInstr s

/-- A store is seen by the very next fetch, also in the middle of the next instruction, and an STM over its own bytes
executes and advances as fetched (`20_memory.md` section 7, `41_fetch_dispatch.md` sections 2 and 4). That the nibble of a
stored value which is negative or above 255 is its floor modulus is PRESUMED (log entry 6, the spec's G1). -/
def Obligations.StoreIsSeenByTheNextFetch : Prop :=
  ∀ (s t : State) (b : Nat) (c : RegIdx), s.mem.wf = true → s.running = true → fetchInstr s = .ok (.stm b c) →
    b < s.memSize → step s = .next t →
    t.pc = s.pc + 3 ∧ t.cell b = s.reg c ∧
    (b = t.pc → opcodeNibble t = ((s.reg c).toInt % 16).toNat) ∧
    ∀ k w j, j < k → b = t.pc + j → fetchBytes t t.pc k = .ok w →
      ((w / 2 ^ (8 * j) % 2 ^ 8 : Nat) : Int) = (s.reg c).toInt

/-- Only STM writes memory, and STM writes no register (`90_conflicts.md` C7, `10_state.md` section 2). -/
def Obligations.OnlyStmWritesMemory : Prop :=
  ∀ s t : State, step s = .next t →
    ((∀ b c, fetchInstr s ≠ .ok (.stm b c)) → t.mem = s.mem) ∧
    ∀ b c, fetchInstr s = .ok (.stm b c) → t.regs = s.regs

/-- No run writes a cell above 1023 (`20_memory.md` section 6, an inference the spec marks as its own). -/
def Obligations.CellsAbove1023AreNeverWritten : Prop :=
  ∀ (k : Nat) (s t : State) (a : Nat), s.mem.wf = true → 1024 ≤ a → runSteps k s = .next t → t.cell a = s.cell a

/-- There is no control transfer: of two steps that raise no fault and differ only in register values, both move the pc to
the same place (`42_instructions.md` section 3). -/
def Obligations.ControlFlowIgnoresRegisters : Prop :=
  ∀ (s t t' : State) (regs : Vector Word 128), step s = .next t → step { s with regs := regs } = .next t' →
    t.fault = none → t'.fault = none → t.pc = t'.pc

/-! ### Invariants and runs -/

/-- The invariant of the machine is kept by every step: the memory stays canonical and inside the machine, the program
inside the memory, the pc at most 4 past the program, and the latch holds only what its fault's rule allows. -/
def Obligations.StepKeepsTheInvariant : Prop :=
  ∀ s t : State, s.Inv → step s = .next t → t.Inv

/-- The invariant holds at reset. -/
def Obligations.ResetMeetsTheInvariant : Prop := State.reset.Inv

/-- Every launch that is not refused starts in the invariant, with values of 20 signed bits. -/
def Obligations.LaunchMeetsTheInvariant : Prop :=
  ∀ memSize image s, launch memSize image = .next s → s.Inv ∧ s.valuesFit

/-- No step takes a register or a cell out of the 20-bit signed range (`42_instructions.md` section 2, an inference the
spec marks as its own). -/
def Obligations.StepKeepsValuesInRange : Prop :=
  ∀ s t : State, s.mem.wf = true → s.valuesFit → step s = .next t → t.valuesFit

/-- At every moment of every run from a launch the invariant holds, every register and cell is in the 20-bit signed range,
and LDM's address is in the range that follows (`42_instructions.md` section 2, an inference the spec marks as its own;
`DATA_INIT` zero is decision D6). -/
def Obligations.RunsStayInRange : Prop :=
  ∀ memSize image s, launch memSize image = .next s →
    ∀ (k : Nat) (t : State), runSteps k s = .next t →
      t.Inv ∧ t.valuesFit ∧
      ∀ b c d, fetchInstr t = .ok (.ldm b c d) →
        -540672 ≤ baseOffsetAddress t d b ∧ baseOffsetAddress t d b ≤ 540670

/-- Every run ends: after `ceil((L - pc)/3)` steps the Core is not running, or a step has answered its fault; it is never
refused (`41_fetch_dispatch.md` section 4, an inference the spec marks as its own; log entries 4 and 5). -/
def Obligations.RunEndsWithinTheBound : Prop :=
  ∀ (s : State) (k : Nat), enoughSteps s k →
    (∃ t, runSteps k s = .next t ∧ t.running = false) ∨ ∃ f, runSteps k s = .fault f

/-- Two canonical memories that read alike are equal, so equal memories are equal data (the model's representation, log
entry 7). -/
def Obligations.EqualReadsEqualMemories : Prop :=
  ∀ m m' : Memory, m.wf = true → m'.wf = true → (∀ a, m.read a = m'.read a) → m = m'

/-! ### Reset, load, status -/

/-- Load: byte `i` of the image is the integer in cell `i`, and `L` is the number of bytes
(`70_reset_and_hazards.md` R192). -/
def Obligations.LaunchLoadsTheImage : Prop :=
  ∀ (memSize : Nat) (image : List Byte), image.length ≤ memSize →
    ∃ s, launch memSize image = .next s ∧ s.progLen = image.length ∧
      ∀ i b, image[i]? = some b → (s.cell i).toInt = b.toNat

/-- What a launch leaves beside the image: registers 0, pc 0, data region 0, the latch clear (`10_state.md` section 7;
decisions D5, D6, D13). -/
def Obligations.LaunchClearsTheRest : Prop :=
  ∀ memSize image s, launch memSize image = .next s →
    (∀ i, (s.reg i).toInt = 0) ∧ s.pc = 0 ∧ s.fault = none ∧ s.memSize = memSize ∧
    ∀ a, image.length ≤ a → (s.cell a).toInt = 0

/-- An image longer than the memory is refused (`70_reset_and_hazards.md` section 2, decision D19; log entry 14). -/
def Obligations.LaunchRefusesALongImage : Prop :=
  ∀ (memSize : Nat) (image : List Byte), memSize < image.length →
    launch memSize image = .refused (.imageTooLong image.length memSize)

/-- The state after reset is the launch of the empty image: every register and every cell 0, pc 0, `L` 0, the latch clear,
and so halted (`10_state.md` section 7, `95_test_vectors.md` F8; decisions D5, D6, D13, log entry 3). -/
def Obligations.ResetState : Prop :=
  (∀ i, State.reset.reg i = 0) ∧ (∀ a, State.reset.cell a = 0) ∧ State.reset.pc = 0 ∧ State.reset.progLen = 0 ∧
  State.reset.fault = none ∧ State.reset.halted ∧ launch State.reset.memSize [] = .next State.reset

/-- The status codes of the latch and of the Encoder's error output (`60_exceptions.md` section 4, decision D14). -/
def Obligations.FaultCodes : Prop :=
  faultCode none = 0 ∧ (∀ pc n, faultCode (some (.unknownOpcode pc n)) = 1) ∧
  (∀ a, faultCode (some (.outOfBounds a)) = 2) ∧ (∀ pc, faultCode (some (.fetchOutOfBounds pc)) = 3) ∧
  (∀ a, faultCode (some (.fetchNonByte a)) = 4) ∧
  ∀ (m : Mnemonic) (vals : List Int),
    (∀ bs, encodeFields m vals = .ok bs → encoderCode (encodeFields m vals) = 0) ∧
    ∀ f v n, encodeFields m vals = .error (.fieldOverflow f v n) → encoderCode (encodeFields m vals) = 1

/-! ### The assembler's text front end -/

/-- The mnemonics: the eight spellings, in either case, and anything else is refused by name and line (`30_encoding.md`
section 5). That tokens are compared by their ASCII capitals, so that a token with any other letter is refused, is the
model's choice (log entry 12). -/
def Obligations.MnemonicSpellings : Prop :=
  spellings = [("LC".toList, .lc), ("LOAD_CONST".toList, .lc), ("STM".toList, .stm), ("STORE_MEM".toList, .stm),
    ("LDM".toList, .ldm), ("LOAD_MEM".toList, .ldm), ("GE".toList, .ge), ("CMP_GE".toList, .ge)] ∧
  (∀ sp m, (sp, m) ∈ spellings → mnemonicOf sp = some m ∧ mnemonicOf (sp.map Char.toLower) = some m) ∧
  (∀ t t' : List Char, t.map Char.toUpper = t'.map Char.toUpper → mnemonicOf t = mnemonicOf t') ∧
  (∀ t : List Char, (∀ sp m, (sp, m) ∈ spellings → t.map Char.toUpper ≠ sp) → mnemonicOf t = none) ∧
  ∀ (line : Nat) (t : List Char) (ops : List (List Char)), mnemonicOf t = none →
    resolveTokens line t ops = .error (.unknownMnemonic line t)

/-- The number of operands (`30_encoding.md` R80). -/
def Obligations.WrongArityIsRefused : Prop :=
  ∀ (line : Nat) (t : List Char) (m : Mnemonic) (ops : List (List Char)), mnemonicOf t = some m →
    ops.length ≠ (match m with | .lc => 2 | .stm => 2 | .ldm => 3 | .ge => 3) →
    resolveTokens line t ops = .error (.arity line)

/-- The operand order of the source text, destination first, and the fields the operands become
(`30_encoding.md` R81). -/
def Obligations.AssemblerOrdersOperands : Prop :=
  ∀ (line : Nat) (t x y z : List Char) (u v w : Int),
    (mnemonicOf t = some .lc → parseReg x = some u → parseInt y = some v →
      resolveTokens line t [x, y] = .ok (.lc, [u, v])) ∧
    (mnemonicOf t = some .stm → parseInt x = some u → parseReg y = some v →
      resolveTokens line t [x, y] = .ok (.stm, [u, v])) ∧
    (mnemonicOf t = some .ldm → parseReg x = some u → parseReg y = some v → parseInt z = some w →
      resolveTokens line t [x, y, z] = .ok (.ldm, [w, u, v])) ∧
    (mnemonicOf t = some .ge → parseReg x = some u → parseReg y = some v → parseInt z = some w →
      resolveTokens line t [x, y, z] = .ok (.ge, [v, w, u]))

/-- Comments and blank lines: what follows the first `;` or `#` does not count, nor does the white space around a line, and a
line of nothing but white space produces no instruction and no error (`30_encoding.md` R77). -/
def Obligations.CommentsAndBlankLines : Prop :=
  (∀ (n : Nat) (text comment : List Char), (∀ c ∈ text, c ≠ ';' ∧ c ≠ '#') →
    assembleLine n (text ++ ';' :: comment) = assembleLine n text ∧
    assembleLine n (text ++ '#' :: comment) = assembleLine n text) ∧
  (∀ (n : Nat) (before text after : List Char), (∀ c ∈ before ++ after, c = ' ' ∨ c = '\t') →
    assembleLine n (before ++ text ++ after) = assembleLine n text) ∧
  ∀ (n : Nat) (text : List Char), (∀ c ∈ text, c = ' ' ∨ c = '\t') → assembleLine n text = .ok []

/-- A whole file: the bytes of its lines in order, numbered from 1, and no partial binary where a line fails
(`30_encoding.md` section 5). That a line ends at a line feed is the model's choice (log entry 12). -/
def Obligations.AssemblyConcatenatesLines : Prop :=
  (∀ n, assembleLines n [] = .ok []) ∧
  (∀ n line, assembleLines n [line] = assembleLine n line) ∧
  (∀ n xs ys a b, assembleLines n xs = .ok a → assembleLines (n + xs.length) ys = .ok b →
    assembleLines n (xs ++ ys) = .ok (a ++ b)) ∧
  (∀ n xs ys e, assembleLines n xs = .error e → assembleLines n (xs ++ ys) = .error e) ∧
  (∀ n xs ys a e, assembleLines n xs = .ok a → assembleLines (n + xs.length) ys = .error e →
    assembleLines n (xs ++ ys) = .error e) ∧
  ∀ line rest : List Char, (∀ c ∈ line, c ≠ '\n') →
    assemble line = assembleLines 1 [line] ∧ assemble (line ++ '\n' :: rest) = assembleLines 1 (line :: splitLines rest)

/-- What a line with tokens assembles to: every resolved value is run through `pack` for the width of its field, the line
assembles exactly where all of them pass, to the Encoder's bytes, and a failure is a `FieldOverflow` with the field's name,
the value, the width and the line (`30_encoding.md` R85); `pack` does not know the kind of a field. -/
def Obligations.LineAssemblesToItsEncoding : Prop :=
  (∀ (n : Nat) (text t : List Char) (ops : List (List Char)) (m : Mnemonic) (vs : List Int),
    lineTokens text = t :: ops → resolveTokens n t ops = .ok (m, vs) →
    (∀ bs, encodeFields m vs = .ok bs → assembleLine n text = .ok bs) ∧
    (∀ name v w, encodeFields m vs = .error (.fieldOverflow name v w) →
      assembleLine n text = .error (.fieldOverflow n name v w)) ∧
    ((∃ bs, assembleLine n text = .ok bs) ↔
      ∀ (j : Nat) (f : Field) (v : Int), (formatOf m).fields[j]? = some f → vs[j]? = some v → ∃ p, pack v f.width = .ok p) ∧
    ∀ e, assembleLine n text = .error e →
      ∃ (j : Nat) (f : Field) (v : Int), (formatOf m).fields[j]? = some f ∧ vs[j]? = some v ∧
        pack v f.width = .error ⟨v, f.width⟩ ∧ e = .fieldOverflow n f.name v f.width) ∧
  (∃ bs, encode (.lc 127 0) = .ok bs ∧ ∀ n, assembleLine n ['L', 'C', ' ', 'r', '-', '1', ',', ' ', '0'] = .ok bs) ∧
  ∃ bs, encode (.stm 1023 0) = .ok bs ∧ ∀ n, assembleLine n ['S', 'T', 'M', ' ', '-', '1', ',', ' ', 'r', '0'] = .ok bs

/-- A line that is not blank yields exactly one instruction, or an error; one whose tokens do not resolve, that error
(`30_encoding.md` section 5, R88). That the carriage return is white space, and that a line of commas without a token is
refused as the empty mnemonic, are the model's choice (log entry 12). -/
def Obligations.NonBlankLineIsOneInstruction : Prop :=
  ∀ (n : Nat) (text : List Char), (∃ c ∈ stripComment text, c ≠ ' ' ∧ c ≠ '\t' ∧ c ≠ '\r') →
    (∀ bs, assembleLine n text = .ok bs →
      ∃ t ops m vs i, lineTokens text = t :: ops ∧ resolveTokens n t ops = .ok (m, vs) ∧ encodeFields m vs = .ok bs ∧
        decodeBytes bs = .ok (i, []) ∧ i.mnemonic = m) ∧
    (∀ t ops e, lineTokens text = t :: ops → resolveTokens n t ops = .error e → assembleLine n text = .error e) ∧
    (lineTokens text = [] → assembleLine n text = .error (.unknownMnemonic n []))
end

