-- ==== Sys2Proof/Laws/Assembler.lean ====
section
/-! SUPPORT. What the assembler's operations can answer: blank lines, resolved lines, assembled lines; and the Encoder's
error output. -/

namespace Sys2Proof

@[simp] theorem encoderCode_ok {α : Type} (a : α) : encoderCode (.ok a : Except EncodeError α) = 0 := rfl
@[simp] theorem encoderCode_error {α : Type} (e : EncodeError) : encoderCode (.error e : Except EncodeError α) = e.code := rfl

namespace Machine

@[simp] theorem lineError_fieldOverflow (n : Nat) (f : FieldName) (v : Int) (w : Nat) :
    lineError n (.fieldOverflow f v w) = .fieldOverflow n f v w := rfl

theorem isWhiteSpace_iff (c : Char) : isWhiteSpace c = true ↔ c = ' ' ∨ c = '\t' ∨ c = '\r' := by
  simp [isWhiteSpace, or_assoc]

theorem isSeparator_of_isWhiteSpace {c : Char} (h : isWhiteSpace c = true) : isSeparator c = true := by
  simp [isSeparator, h]

/-- Separators alone hold no token. -/
theorem tokensFrom_separators {cs : List Char} (h : ∀ c ∈ cs, isSeparator c = true) : tokensFrom [] cs = [] := by
  induction cs with
  | nil => rfl
  | cons c cs ih =>
    rw [tokensFrom, if_pos (h c List.mem_cons_self)]
    exact ih fun d hd => h d (List.mem_cons_of_mem c hd)

theorem isBlankLine_iff (text : List Char) : isBlankLine text = true ↔ ∀ c ∈ stripComment text, isWhiteSpace c = true := by
  simp [isBlankLine]

/-- A blank line has no token; a line with a token is not blank. -/
theorem lineTokens_of_blank {text : List Char} (h : isBlankLine text = true) : lineTokens text = [] :=
  tokensFrom_separators fun c hc => isSeparator_of_isWhiteSpace ((isBlankLine_iff text).1 h c hc)

/-- One value for each field. -/
theorem resolveFields_length {n : Nat} {operands : List (FieldName × List Char)} {fs : List Field} {vs : List Int}
    (h : resolveFields n operands fs = .ok vs) : vs.length = fs.length := by
  induction fs generalizing vs with
  | nil => cases h; rfl
  | cons f fs ih =>
    rw [resolveFields] at h
    split at h
    · cases h
    · split at h
      · cases h
      · next hr =>
        cases h
        rw [List.length_cons, List.length_cons, ih hr]

/-- What a tokenised line that resolves has gone through. -/
theorem resolveTokens_ok {n : Nat} {t : List Char} {ops : List (List Char)} {m : Mnemonic} {vs : List Int}
    (h : resolveTokens n t ops = .ok (m, vs)) :
    mnemonicOf t = some m ∧ ops.length = (formatOf m).fields.length ∧
      resolveFields n ((operandOrder m).zip ops) (formatOf m).fields = .ok vs := by
  unfold resolveTokens at h
  split at h
  · cases h
  · next m' hm =>
    split at h
    · next hl =>
      split at h
      · cases h
      · next hr => cases h; exact ⟨hm, hl, hr⟩
    · cases h

theorem resolveTokens_length {n : Nat} {t : List Char} {ops : List (List Char)} {m : Mnemonic} {vs : List Int}
    (h : resolveTokens n t ops = .ok (m, vs)) : vs.length = (formatOf m).fields.length :=
  resolveFields_length (resolveTokens_ok h).2.2

/-- Every way a line can assemble. -/
theorem assembleLine_cases (n : Nat) (text : List Char) :
    (isBlankLine text = true ∧ assembleLine n text = .ok []) ∨
    (isBlankLine text = false ∧
      ((∃ e, resolveLine n text = .error e ∧ assembleLine n text = .error e) ∨
        ∃ m vs, resolveLine n text = .ok (m, vs) ∧
          ((∃ bs, encodeFields m vs = .ok bs ∧ assembleLine n text = .ok bs) ∨
            ∃ e, encodeFields m vs = .error e ∧ assembleLine n text = .error (lineError n e)))) := by
  unfold assembleLine
  cases hb : isBlankLine text with
  | true => exact .inl ⟨rfl, rfl⟩
  | false =>
    refine .inr ⟨rfl, ?_⟩
    cases hr : resolveLine n text with
    | error e => exact .inl ⟨e, rfl, rfl⟩
    | ok p =>
      obtain ⟨m, vs⟩ := p
      refine .inr ⟨m, vs, rfl, ?_⟩
      cases he : encodeFields m vs with
      | ok bs => exact .inl ⟨bs, rfl, by simp [he]⟩
      | error e => exact .inr ⟨e, rfl, by simp [he]⟩

end Machine

end Sys2Proof
end

