-- ==== Sys2Proof/Laws/Codec.lean ====
section
/-! SUPPORT. The lemmas of the codec, the format table, the byte order and the encoder's loop. -/

namespace Sys2Proof

/-! ### pack -/

/-- What `pack` answers, whole. -/
theorem pack_eq (v : Int) (n : Nat) (hn : 1 ≤ n) :
    (-(2 ^ (n - 1)) ≤ v ∧ v < 2 ^ n ∧ pack v n = .ok (v % 2 ^ n).toNat) ∨
      ((v < -(2 ^ (n - 1)) ∨ 2 ^ n ≤ v) ∧ pack v n = .error ⟨v, n⟩) := by
  have hp : (2 : Int) ^ n = 2 * 2 ^ (n - 1) := by
    obtain ⟨k, rfl⟩ : ∃ k, n = k + 1 := ⟨n - 1, by omega⟩
    rw [Nat.add_sub_cancel, pow_succ, mul_comm]
  have hpos : (0 : Int) < 2 ^ (n - 1) := by positivity
  unfold pack Config.packMin
  by_cases h1 : v < -(2 ^ (n - 1))
  · exact .inr ⟨.inl h1, by rw [if_pos h1]⟩
  · rw [if_neg h1]
    by_cases h2 : v < 0
    · simp only [if_pos h2]
      refine .inl ⟨by omega, by omega, ?_⟩
      rw [if_pos (by omega), ← Int.add_emod_right v, Int.emod_eq_of_lt (by omega) (by omega)]
    · simp only [if_neg h2]
      by_cases h3 : v < 2 ^ n
      · refine .inl ⟨by omega, h3, ?_⟩
        rw [if_pos ⟨by omega, h3⟩, Int.emod_eq_of_lt (by omega) h3]
      · exact .inr ⟨.inr (by omega), by rw [if_neg (by omega)]⟩

/-- A packed value fits its slot. -/
theorem pack_lt {v : Int} {n p : Nat} (h : pack v n = .ok p) : p < 2 ^ n := by
  have hc : ((2 ^ n : Nat) : Int) = 2 ^ n := by push_cast; rfl
  unfold pack at h
  by_cases h1 : v < Config.packMin n
  · rw [if_pos h1] at h
    cases h
  · rw [if_neg h1] at h
    by_cases h2 : 0 ≤ (if v < 0 then v + 2 ^ n else v) ∧ (if v < 0 then v + 2 ^ n else v) < 2 ^ n
    · simp only [if_pos h2, Except.ok.injEq] at h
      omega
    · simp only [if_neg h2] at h
      cases h

/-- A canonical unsigned value packs to itself. -/
theorem pack_unsigned {v : Int} {n : Nat} (hn : 1 ≤ n) (h : unsignedFits n v = true) : pack v n = .ok v.toNat := by
  have h' : 0 ≤ v ∧ v ≤ 2 ^ n - 1 := by simpa [unsignedFits] using h
  have hpos : (0 : Int) < 2 ^ (n - 1) := by positivity
  rcases pack_eq v n hn with ⟨-, h2, e⟩ | ⟨h2, -⟩
  · rw [e, Int.emod_eq_of_lt h'.1 h2]
  · omega

/-- Unpacking a packed canonical signed value gives it back. -/
theorem unpackSigned_pack {v : Int} {n p : Nat} (hn : 1 ≤ n) (h : signedFits n v = true) (hp : pack v n = .ok p) :
    unpackSigned p n = v := by
  have h' : -(2 ^ (n - 1)) ≤ v ∧ v ≤ 2 ^ (n - 1) - 1 := by simpa [signedFits] using h
  have h2 : (2 : Int) ^ n = 2 * 2 ^ (n - 1) := by
    obtain ⟨k, rfl⟩ : ∃ k, n = k + 1 := ⟨n - 1, by omega⟩
    rw [Nat.add_sub_cancel, pow_succ, mul_comm]
  have hpos : (0 : Int) < 2 ^ (n - 1) := by positivity
  have hc : ((2 ^ (n - 1) : Nat) : Int) = 2 ^ (n - 1) := by push_cast; rfl
  rcases pack_eq v n hn with ⟨-, -, e⟩ | ⟨h3, -⟩
  · rw [e] at hp
    cases hp
    unfold unpackSigned
    by_cases hv : v < 0
    · rw [← Int.add_emod_right v, Int.emod_eq_of_lt (by omega) (by omega), if_pos (by omega)]
      omega
    · rw [Int.emod_eq_of_lt (by omega) (by omega), if_neg (by omega)]
      omega
  · omega

/-- Unpacking a value that fits its slot. -/
theorem unpackUnsigned_of_lt {p n : Nat} (h : p < 2 ^ n) : unpackUnsigned p n = p := by
  unfold unpackUnsigned
  rw [Nat.mod_eq_of_lt h]

/-! ### Slots of a word -/

/-- ORing a value above a word's bits is adding it. -/
theorem or_shiftLeft_eq_add (w p o : Nat) (h : w < 2 ^ o) : w ||| (p <<< o) = w + p * 2 ^ o := by
  rw [Nat.shiftLeft_eq, Nat.or_comm, mul_comm, ← Nat.two_pow_add_eq_or_of_lt h, add_comm]

theorem extract_lt (w o n : Nat) : extract w o n < 2 ^ n := Nat.mod_lt _ (by positivity)

/-! ### The format table -/

theorem formatByOpcode_none {a : Nat} (h0 : a ≠ 0) (h9 : a ≠ 9) (h13 : a ≠ 13) (h15 : a ≠ 15) :
    formatByOpcode a = none := by
  refine List.find?_eq_none.2 fun f hf => ?_
  simp only [instrFormats, List.mem_cons, List.not_mem_nil, or_false] at hf
  rcases hf with rfl | rfl | rfl | rfl
  · simpa [lcFormat] using h0.symm
  · simpa [stmFormat] using h9.symm
  · simpa [ldmFormat] using h13.symm
  · simpa [geFormat] using h15.symm

/-- The four answers of a lookup by opcode. -/
theorem formatByOpcode_some {a : Nat} {f : Format} (h : formatByOpcode a = some f) :
    (a = 0 ∧ f = lcFormat) ∨ (a = 9 ∧ f = stmFormat) ∨ (a = 13 ∧ f = ldmFormat) ∨ (a = 15 ∧ f = geFormat) := by
  by_cases h0 : a = 0
  · subst h0; cases h; exact .inl ⟨rfl, rfl⟩
  · by_cases h9 : a = 9
    · subst h9; cases h; exact .inr (.inl ⟨rfl, rfl⟩)
    · by_cases h13 : a = 13
      · subst h13; cases h; exact .inr (.inr (.inl ⟨rfl, rfl⟩))
      · by_cases h15 : a = 15
        · subst h15; cases h; exact .inr (.inr (.inr ⟨rfl, rfl⟩))
        · rw [formatByOpcode_none h0 h9 h13 h15] at h
          cases h

/-- The lengths: LC 4, STM 3, LDM 5, GE 4. -/
@[simp] theorem ilen_lc : ilen .lc = 4 := rfl
@[simp] theorem ilen_stm : ilen .stm = 3 := rfl
@[simp] theorem ilen_ldm : ilen .ldm = 5 := rfl
@[simp] theorem ilen_ge : ilen .ge = 4 := rfl

theorem ilen_pos (m : Mnemonic) : 3 ≤ ilen m ∧ ilen m ≤ 5 := by cases m <;> decide

/-- A looked-up format is the format of its mnemonic. -/
theorem formatOf_of_formatByOpcode {a : Nat} {f : Format} (h : formatByOpcode a = some f) :
    formatOf f.mnemonic = f ∧ f.opcode = a := by
  rcases formatByOpcode_some h with ⟨rfl, rfl⟩ | ⟨rfl, rfl⟩ | ⟨rfl, rfl⟩ | ⟨rfl, rfl⟩ <;> exact ⟨rfl, rfl⟩

@[simp] theorem decodeFormat_mnemonic (f : Format) (w : Nat) : (decodeFormat f w).mnemonic = f.mnemonic := by
  unfold decodeFormat Instr.ofRecord
  split <;> simp_all [Instr.mnemonic]

/-! ### What decoding each format reads -/

theorem unpackUnsigned_extract (w o n : Nat) : unpackUnsigned (extract w o n) n = (extract w o n : Nat) :=
  unpackUnsigned_of_lt (extract_lt w o n)

theorem regIdx_natCast (k : Nat) : regIdx (k : Int) = Fin.ofNat 128 k := by
  unfold regIdx
  rw [Int.toNat_natCast]

theorem decodeFormat_lc (w : Nat) :
    decodeFormat lcFormat w = .lc (Fin.ofNat 128 (extract w 4 7)) (unpackSigned (extract w 11 20) 20) := by
  change Instr.lc (regIdx (unpackUnsigned (extract w 4 7) 7)) _ = _
  rw [unpackUnsigned_extract, regIdx_natCast]
  rfl

theorem decodeFormat_stm (w : Nat) :
    decodeFormat stmFormat w = .stm (extract w 4 10) (Fin.ofNat 128 (extract w 14 7)) := by
  change Instr.stm (unpackUnsigned (extract w 4 10) 10).toNat (regIdx (unpackUnsigned (extract w 14 7) 7)) = _
  rw [unpackUnsigned_extract, unpackUnsigned_extract, regIdx_natCast, Int.toNat_natCast]

theorem decodeFormat_ldm (w : Nat) :
    decodeFormat ldmFormat w = .ldm (unpackSigned (extract w 4 15) 15) (Fin.ofNat 128 (extract w 19 7))
      (Fin.ofNat 128 (extract w 26 7)) := by
  change Instr.ldm _ (regIdx (unpackUnsigned (extract w 19 7) 7)) (regIdx (unpackUnsigned (extract w 26 7) 7)) = _
  rw [unpackUnsigned_extract, unpackUnsigned_extract, regIdx_natCast, regIdx_natCast]
  rfl

theorem decodeFormat_ge (w : Nat) :
    decodeFormat geFormat w = .ge (Fin.ofNat 128 (extract w 4 7)) (extract w 11 10) (Fin.ofNat 128 (extract w 21 7)) := by
  change Instr.ge (regIdx (unpackUnsigned (extract w 4 7) 7)) (unpackUnsigned (extract w 11 10) 10).toNat
    (regIdx (unpackUnsigned (extract w 21 7) 7)) = _
  rw [unpackUnsigned_extract, unpackUnsigned_extract, unpackUnsigned_extract, regIdx_natCast, regIdx_natCast,
    Int.toNat_natCast]

/-! ### Bytes -/

@[simp] theorem serialize_length (w k : Nat) : (serialize w k).length = k := by
  induction k generalizing w with
  | zero => rfl
  | succ k ih => simp [serialize, ih]

/-- The first byte of a serialised word is its low eight bits. -/
theorem serialize_succ (w k : Nat) : serialize w (k + 1) = BitVec.ofNat 8 w :: serialize (w / 2 ^ 8) k := rfl

theorem deserialize_lt (bs : List Byte) : deserialize bs < 2 ^ (8 * bs.length) := by
  induction bs with
  | nil => simp [deserialize]
  | cons b bs ih =>
    have hb := b.isLt
    rw [deserialize, List.length_cons, Nat.mul_succ, pow_add, mul_comm (2 ^ (8 * bs.length))]
    omega

/-- What decoding a list of bytes with a first byte answers, whole. -/
theorem decodeBytes_cons (b : Byte) (bs : List Byte) :
    (formatByOpcode (b.toNat % 16) = none ∧ decodeBytes (b :: bs) = .error (.unknownOpcode (b.toNat % 16))) ∨
      ∃ f, formatByOpcode (b.toNat % 16) = some f ∧
        (((b :: bs).length < f.size ∧ decodeBytes (b :: bs) = .error (.truncated f.size (b :: bs).length)) ∨
          (f.size ≤ (b :: bs).length ∧
            decodeBytes (b :: bs) =
              .ok (decodeFormat f (deserialize ((b :: bs).take f.size)), (b :: bs).drop f.size))) := by
  rw [decodeBytes]
  cases hf : formatByOpcode (b.toNat % 16) with
  | none => exact .inl ⟨rfl, rfl⟩
  | some f =>
    refine .inr ⟨f, rfl, ?_⟩
    by_cases hl : (b :: bs).length < f.size
    · exact .inl ⟨hl, if_pos hl⟩
    · exact .inr ⟨by omega, if_neg hl⟩

/-! ### The encoder's loop -/

/-- What a successful encoder loop packed. -/
theorem packFields_ok_cons {f : Field} {fs : List Field} {v : Int} {vs : List Int} {w u : Nat}
    (h : packFields (f :: fs) (v :: vs) w = .ok u) :
    ∃ p, pack v f.width = .ok p ∧ packFields fs vs (w ||| (p <<< f.offset)) = .ok u := by
  unfold packFields at h
  split at h
  · cases h
  · next p hp => exact ⟨p, hp, h⟩

/-- The loop takes a step where its value packs. -/
theorem packFields_cons_of_pack {f : Field} {v : Int} {p : Nat} (hp : pack v f.width = .ok p) (fs : List Field)
    (vs : List Int) (w : Nat) : packFields (f :: fs) (v :: vs) w = packFields fs vs (w ||| (p <<< f.offset)) := by
  rw [packFields, hp]

/-- The loop needs one value per field. -/
theorem packFields_ok_length {fs : List Field} {vs : List Int} {w u : Nat} (h : packFields fs vs w = .ok u) :
    vs.length = fs.length := by
  induction fs generalizing vs w with
  | nil => cases vs with
    | nil => rfl
    | cons v vs => cases h
  | cons f fs ih => cases vs with
    | nil => cases h
    | cons v vs =>
      obtain ⟨p, -, h⟩ := packFields_ok_cons h
      simp [ih h]

/-- What `pack` raises names its own value and width. -/
theorem pack_error {v : Int} {n : Nat} {e : RangeError} (h : pack v n = .error e) : e = ⟨v, n⟩ := by
  unfold pack at h
  split at h
  · cases h; rfl
  · simp only at h
    split at h <;> split at h <;> cases h <;> rfl

/-- What the loop answers for one value per field, whole: a word where every value packs, and else the overflow of a field
whose value does not. -/
theorem packFields_cases (fs : List Field) (vs : List Int) (w : Nat) (hl : vs.length = fs.length) :
    ((∃ x, packFields fs vs w = .ok x) ∧
      ∀ (j : Nat) (f : Field) (v : Int), fs[j]? = some f → vs[j]? = some v → ∃ p, pack v f.width = .ok p) ∨
    ∃ (j : Nat) (f : Field) (v : Int), fs[j]? = some f ∧ vs[j]? = some v ∧ pack v f.width = .error ⟨v, f.width⟩ ∧
      packFields fs vs w = .error (.fieldOverflow f.name v f.width) := by
  induction fs generalizing vs w with
  | nil =>
    obtain rfl : vs = [] := by simpa using hl
    exact .inl ⟨⟨w, rfl⟩, fun j f v h => by simp at h⟩
  | cons f fs ih =>
    cases vs with
    | nil => simp at hl
    | cons v vs =>
      cases hp : pack v f.width with
      | error e =>
        obtain rfl := pack_error hp
        exact .inr ⟨0, f, v, rfl, rfl, hp, by rw [packFields, hp]⟩
      | ok p =>
        rw [packFields_cons_of_pack hp]
        rcases ih vs (w ||| (p <<< f.offset)) (by simpa using hl) with ⟨hx, hall⟩ | ⟨j, g, u, hg, hu, he, hw⟩
        · refine .inl ⟨hx, fun j g u hg hu => ?_⟩
          cases j with
          | zero => cases hg; cases hu; exact ⟨p, hp⟩
          | succ j => exact hall j g u hg hu
        · exact .inr ⟨j + 1, g, u, hg, hu, he, hw⟩

end Sys2Proof
end

