-- ==== Sys2Proof/Laws/State.lean ====
section
/-! SUPPORT. One lemma per field per update of the state, and the registers and cells of each update, so that no later
proof unfolds a record update. -/

namespace Sys2Proof.Machine

/-! ### setReg -/

@[simp] theorem State.setReg_mem (s : State) (i : RegIdx) (v : Word) : (s.setReg i v).mem = s.mem := rfl
@[simp] theorem State.setReg_pc (s : State) (i : RegIdx) (v : Word) : (s.setReg i v).pc = s.pc := rfl
@[simp] theorem State.setReg_progLen (s : State) (i : RegIdx) (v : Word) : (s.setReg i v).progLen = s.progLen := rfl
@[simp] theorem State.setReg_fault (s : State) (i : RegIdx) (v : Word) : (s.setReg i v).fault = s.fault := rfl
@[simp] theorem State.setReg_memSize (s : State) (i : RegIdx) (v : Word) : (s.setReg i v).memSize = s.memSize := rfl
@[simp] theorem State.setReg_cell (s : State) (i : RegIdx) (v : Word) (a : Nat) : (s.setReg i v).cell a = s.cell a := rfl

/-! ### setCell -/

@[simp] theorem State.setCell_regs (s : State) (a : Nat) (v : Word) : (s.setCell a v).regs = s.regs := rfl
@[simp] theorem State.setCell_mem (s : State) (a : Nat) (v : Word) : (s.setCell a v).mem = s.mem.write a v := rfl
@[simp] theorem State.setCell_pc (s : State) (a : Nat) (v : Word) : (s.setCell a v).pc = s.pc := rfl
@[simp] theorem State.setCell_progLen (s : State) (a : Nat) (v : Word) : (s.setCell a v).progLen = s.progLen := rfl
@[simp] theorem State.setCell_fault (s : State) (a : Nat) (v : Word) : (s.setCell a v).fault = s.fault := rfl
@[simp] theorem State.setCell_memSize (s : State) (a : Nat) (v : Word) : (s.setCell a v).memSize = s.memSize := rfl
@[simp] theorem State.setCell_reg (s : State) (a : Nat) (v : Word) (i : RegIdx) : (s.setCell a v).reg i = s.reg i := rfl

/-! ### takeFault -/

@[simp] theorem takeFault_regs (f : Fault) (s : State) : (takeFault f s).regs = s.regs := rfl
@[simp] theorem takeFault_mem (f : Fault) (s : State) : (takeFault f s).mem = s.mem := rfl
@[simp] theorem takeFault_pc (f : Fault) (s : State) : (takeFault f s).pc = s.pc := rfl
@[simp] theorem takeFault_progLen (f : Fault) (s : State) : (takeFault f s).progLen = s.progLen := rfl
@[simp] theorem takeFault_fault (f : Fault) (s : State) : (takeFault f s).fault = some f := rfl
@[simp] theorem takeFault_memSize (f : Fault) (s : State) : (takeFault f s).memSize = s.memSize := rfl
@[simp] theorem takeFault_reg (f : Fault) (s : State) (i : RegIdx) : (takeFault f s).reg i = s.reg i := rfl
@[simp] theorem takeFault_cell (f : Fault) (s : State) (a : Nat) : (takeFault f s).cell a = s.cell a := rfl

/-! ### advance -/

@[simp] theorem advance_regs (m : Mnemonic) (s : State) : (advance m s).regs = s.regs := rfl
@[simp] theorem advance_mem (m : Mnemonic) (s : State) : (advance m s).mem = s.mem := rfl
@[simp] theorem advance_pc (m : Mnemonic) (s : State) : (advance m s).pc = s.pc + ilen m := rfl
@[simp] theorem advance_progLen (m : Mnemonic) (s : State) : (advance m s).progLen = s.progLen := rfl
@[simp] theorem advance_fault (m : Mnemonic) (s : State) : (advance m s).fault = s.fault := rfl
@[simp] theorem advance_memSize (m : Mnemonic) (s : State) : (advance m s).memSize = s.memSize := rfl
@[simp] theorem advance_reg (m : Mnemonic) (s : State) (i : RegIdx) : (advance m s).reg i = s.reg i := rfl
@[simp] theorem advance_cell (m : Mnemonic) (s : State) (a : Nat) : (advance m s).cell a = s.cell a := rfl

/-! ### reset -/

@[simp] theorem reset_mem : State.reset.mem = [] := rfl
@[simp] theorem reset_pc : State.reset.pc = 0 := rfl
@[simp] theorem reset_progLen : State.reset.progLen = 0 := rfl
@[simp] theorem reset_fault : State.reset.fault = none := rfl

end Sys2Proof.Machine
end

