-- ==== Sys2Proof/Laws/Memory.lean ====
section
/-! SUPPORT. The memory laws: what a write does to a read, and that every memory operation keeps the canonical form. -/

namespace Sys2Proof.Machine

@[simp] theorem Memory.read_nil (a : Nat) : Memory.read [] a = Config.dataInit := rfl

theorem Memory.read_cons (b : Nat) (u : Word) (m : Memory) (a : Nat) :
    Memory.read ((b, u) :: m) a = if a = b then u else Memory.read m a := rfl

theorem Memory.wf_cons (a : Nat) (v : Word) (m : Memory) :
    Memory.wf ((a, v) :: m) = true ↔ v ≠ Config.dataInit ∧ (∀ c ∈ m, a < c.1) ∧ Memory.wf m = true := by
  simp [Memory.wf, and_assoc]

/-- An address below every listed one is not listed. -/
theorem Memory.read_of_lt_all (m : Memory) (a : Nat) (h : ∀ c ∈ m, a < c.1) : m.read a = Config.dataInit := by
  induction m with
  | nil => rfl
  | cons c m ih =>
    obtain ⟨b, u⟩ := c
    have hb : a < b := h (b, u) (by simp)
    rw [Memory.read_cons, if_neg (by omega), ih fun c hc => h c (by simp [hc])]

theorem Memory.read_link (a : Nat) (v : Word) (m : Memory) (h : ∀ c ∈ m, a < c.1) (b : Nat) :
    (Memory.link a v m).read b = if b = a then v else m.read b := by
  unfold Memory.link
  split
  · next hv =>
    split
    · next hb => rw [hb, m.read_of_lt_all a h, hv]
    · rfl
  · rfl

theorem Memory.wf_link (a : Nat) (v : Word) (m : Memory) (h : ∀ c ∈ m, a < c.1) (hm : m.wf = true) :
    (Memory.link a v m).wf = true := by
  unfold Memory.link
  split
  · exact hm
  · next hv => exact (Memory.wf_cons a v m).2 ⟨hv, h, hm⟩

theorem Memory.mem_link {a : Nat} {v : Word} {m : Memory} {c : Nat × Word} (h : c ∈ Memory.link a v m) :
    c.1 = a ∨ c ∈ m := by
  unfold Memory.link at h
  split at h
  · exact .inr h
  · rcases List.mem_cons.1 h with rfl | h
    · exact .inl rfl
    · exact .inr h

theorem Memory.mem_write {m : Memory} {a : Nat} {v : Word} {c : Nat × Word} (h : c ∈ m.write a v) :
    c.1 = a ∨ c ∈ m := by
  induction m with
  | nil => exact Memory.mem_link h
  | cons d m ih =>
    obtain ⟨b, u⟩ := d
    unfold Memory.write at h
    split at h
    · exact Memory.mem_link h
    · split at h
      · rcases Memory.mem_link h with h | h
        · exact .inl h
        · exact .inr (by simp [h])
      · rcases List.mem_cons.1 h with rfl | h
        · exact .inr (by simp)
        · rcases ih h with h | h
          · exact .inl h
          · exact .inr (by simp [h])

/-- A write replaces one whole cell and leaves every other cell alone. -/
theorem Memory.read_write (m : Memory) (hm : m.wf = true) (a : Nat) (v : Word) (b : Nat) :
    (m.write a v).read b = if b = a then v else m.read b := by
  induction m with
  | nil => exact Memory.read_link a v [] (by simp) b
  | cons c m ih =>
    obtain ⟨d, u⟩ := c
    obtain ⟨-, hlt, hm'⟩ := (Memory.wf_cons d u m).1 hm
    unfold Memory.write
    split
    · next had =>
      refine Memory.read_link a v _ (fun c hc => ?_) b
      rcases List.mem_cons.1 hc with rfl | hc
      · exact had
      · exact had.trans (hlt c hc)
    · split
      · next had =>
        subst had
        rw [Memory.read_link a v m hlt, Memory.read_cons]
        split <;> rfl
      · next had =>
        rw [Memory.read_cons, Memory.read_cons, ih hm']
        split
        · next hbd => rw [if_neg (by omega)]
        · rfl

/-- A write keeps the canonical form. -/
theorem Memory.wf_write (m : Memory) (hm : m.wf = true) (a : Nat) (v : Word) : (m.write a v).wf = true := by
  induction m with
  | nil => exact Memory.wf_link a v [] (by simp) rfl
  | cons c m ih =>
    obtain ⟨d, u⟩ := c
    obtain ⟨hu, hlt, hm'⟩ := (Memory.wf_cons d u m).1 hm
    unfold Memory.write
    split
    · next had =>
      refine Memory.wf_link a v _ (fun c hc => ?_) hm
      rcases List.mem_cons.1 hc with rfl | hc
      · exact had
      · exact had.trans (hlt c hc)
    · split
      · next had => exact Memory.wf_link a v m (had ▸ hlt) hm'
      · next had =>
        refine (Memory.wf_cons d u _).2 ⟨hu, fun c hc => ?_, ih hm'⟩
        rcases Memory.mem_write hc with h | h
        · omega
        · exact hlt c h

theorem Memory.below_iff (n : Nat) (m : Memory) : m.below n = true ↔ ∀ c ∈ m, c.1 < n := by
  simp [Memory.below]

/-- A write below the bound keeps every listed address below it. -/
theorem Memory.below_write (m : Memory) (n a : Nat) (v : Word) (hm : m.below n = true) (ha : a < n) :
    (m.write a v).below n = true := by
  rw [Memory.below_iff] at hm ⊢
  intro c hc
  rcases Memory.mem_write hc with h | h
  · omega
  · exact hm c h

/-- A wider bound holds too. -/
theorem Memory.below_mono (m : Memory) (n k : Nat) (hm : m.below n = true) (h : n ≤ k) : m.below k = true := by
  rw [Memory.below_iff] at hm ⊢
  exact fun c hc => (hm c hc).trans_le h

/-- No cell past the bound is listed, so it reads as `Config.dataInit`. -/
theorem Memory.read_of_below (m : Memory) (n a : Nat) (hm : m.below n = true) (h : n ≤ a) :
    m.read a = Config.dataInit := by
  rw [Memory.below_iff] at hm
  induction m with
  | nil => rfl
  | cons c m ih =>
    obtain ⟨b, u⟩ := c
    have hb : b < n := hm (b, u) (by simp)
    rw [Memory.read_cons, if_neg (by omega), ih fun c hc => hm c (by simp [hc])]

/-- The memory after reset has the canonical form. -/
theorem reset_mem_wf : State.reset.mem.wf = true := rfl

end Sys2Proof.Machine
end

