-- ==== Sys2Proof/Laws/Ops.lean ====
section
/-! SUPPORT. One lemma for each shared operation that says once everything it can do, and the two or three ways each
meaning can answer. -/

namespace Sys2Proof.Machine

/-! ### Registers and cells -/

theorem State.reg_setReg (s : State) (i j : RegIdx) (v : Word) :
    (s.setReg i v).reg j = if j = i then v else s.reg j := by
  unfold State.reg State.setReg
  simp only [Vector.getElem_set, Fin.ext_iff, eq_comm]

theorem State.cell_setCell (s : State) (hm : s.mem.wf = true) (a : Nat) (v : Word) (b : Nat) :
    (s.setCell a v).cell b = if b = a then v else s.cell b :=
  Memory.read_write s.mem hm a v b

/-! ### Data accesses -/

theorem State.inBounds_iff (s : State) (addr : Int) :
    s.inBounds addr = true ↔ 0 ≤ addr ∧ addr < s.memSize := by
  simp [State.inBounds]

theorem memRead_eq (s : State) (addr : Int) :
    (s.inBounds addr = true ∧ memRead s addr = .ok (s.cell addr.toNat)) ∨
      (s.inBounds addr = false ∧ memRead s addr = .error (.outOfBounds addr)) := by
  unfold memRead
  cases s.inBounds addr <;> simp

theorem memWrite_eq (s : State) (addr : Int) (v : Word) :
    (s.inBounds addr = true ∧ memWrite s addr v = .ok (s.setCell addr.toNat v)) ∨
      (s.inBounds addr = false ∧ memWrite s addr v = .error (.outOfBounds addr)) := by
  unfold memWrite
  cases s.inBounds addr <;> simp

/-! ### The end of an instruction -/

@[simp] theorem finish_ok (m : Mnemonic) (s t : State) : finish m s (.ok t) = .next (advance m t) := rfl

@[simp] theorem finish_error (m : Mnemonic) (s : State) (f : Fault) : finish m s (.error f) = .next (takeFault f s) := rfl

/-! ### What each meaning answers -/

theorem execLc_eq (b : RegIdx) (c : Int) (s : State) :
    execLc b c s = .next (advance .lc (s.setReg b (constant c))) := rfl

theorem execStm_eq (b : Nat) (c : RegIdx) (s : State) :
    (b < s.memSize ∧ execStm b c s = .next (advance .stm (s.setCell b (s.reg c)))) ∨
      (s.memSize ≤ b ∧ execStm b c s = .next (takeFault (.outOfBounds b) s)) := by
  unfold execStm absoluteAddress
  rcases memWrite_eq s b (s.reg c) with ⟨h, e⟩ | ⟨h, e⟩
  · rw [State.inBounds_iff] at h
    exact .inl ⟨by omega, by rw [e]; rfl⟩
  · rw [← Bool.not_eq_true, State.inBounds_iff] at h
    exact .inr ⟨by omega, by rw [e]; rfl⟩

theorem execLdm_eq (b : Int) (c d : RegIdx) (s : State) :
    ((0 ≤ s.regInt d + b ∧ s.regInt d + b < s.memSize) ∧
        execLdm b c d s = .next (advance .ldm (s.setReg c (s.cell (s.regInt d + b).toNat)))) ∨
      ((s.regInt d + b < 0 ∨ (s.memSize : Int) ≤ s.regInt d + b) ∧
        execLdm b c d s = .next (takeFault (.outOfBounds (s.regInt d + b)) s)) := by
  unfold execLdm baseOffsetAddress
  rcases memRead_eq s (s.regInt d + b) with ⟨h, e⟩ | ⟨h, e⟩
  · exact .inl ⟨(s.inBounds_iff _).1 h, by rw [e]; rfl⟩
  · rw [← Bool.not_eq_true, State.inBounds_iff] at h
    exact .inr ⟨by omega, by rw [e]; rfl⟩

theorem execGe_eq (b : RegIdx) (c : Nat) (d : RegIdx) (s : State) :
    (c < s.memSize ∧ execGe b c d s = .next (advance .ge (s.setReg d (geResult (s.reg b) (s.cell c))))) ∨
      (s.memSize ≤ c ∧ execGe b c d s = .next (takeFault (.outOfBounds c) s)) := by
  unfold execGe absoluteAddress
  rcases memRead_eq s c with ⟨h, e⟩ | ⟨h, e⟩
  · rw [State.inBounds_iff] at h
    exact .inl ⟨by omega, by rw [e]; rfl⟩
  · rw [← Bool.not_eq_true, State.inBounds_iff] at h
    exact .inr ⟨by omega, by rw [e]; rfl⟩

/-- What an instruction can do: take an `OutOfBounds` fault, write one register and advance, or store one cell and
advance. -/
theorem exec_cases (i : Instr) (s : State) :
    (∃ a : Int, (a < 0 ∨ (s.memSize : Int) ≤ a) ∧ exec i s = .next (takeFault (.outOfBounds a) s)) ∨
      (∃ (d : RegIdx) (v : Word), (∀ b c, i ≠ .stm b c) ∧
        (v = Word.ofInt (match i with | .lc _ c => c | _ => 0) ∨ v = 0 ∨ v = 1 ∨ ∃ a, v = s.cell a) ∧
        exec i s = .next (advance i.mnemonic (s.setReg d v))) ∨
      ∃ b c, i = .stm b c ∧ b < s.memSize ∧ exec i s = .next (advance .stm (s.setCell b (s.reg c))) := by
  cases i with
  | lc b c => exact .inr (.inl ⟨b, constant c, by simp, .inl rfl, rfl⟩)
  | stm b c =>
    rcases execStm_eq b c s with ⟨h, e⟩ | ⟨h, e⟩
    · exact .inr (.inr ⟨b, c, rfl, h, e⟩)
    · exact .inl ⟨b, .inr (by omega), e⟩
  | ldm b c d =>
    rcases execLdm_eq b c d s with ⟨-, e⟩ | ⟨h, e⟩
    · exact .inr (.inl ⟨c, _, by simp, .inr (.inr (.inr ⟨_, rfl⟩)), e⟩)
    · exact .inl ⟨_, h, e⟩
  | ge b c d =>
    rcases execGe_eq b c d s with ⟨-, e⟩ | ⟨h, e⟩
    · refine .inr (.inl ⟨d, _, by simp, .inr ?_, e⟩)
      unfold geResult truthWord
      split
      · exact .inr (.inl rfl)
      · exact .inl rfl
    · exact .inl ⟨c, .inr (by omega), e⟩

/-- An instruction always answers a next state. -/
theorem exec_next (i : Instr) (s : State) : ∃ t, exec i s = .next t := by
  rcases exec_cases i s with ⟨_, _, e⟩ | ⟨_, _, _, _, e⟩ | ⟨_, _, _, _, e⟩ <;> exact ⟨_, e⟩

end Sys2Proof.Machine
end

