-- ==== Sys2Proof/Laws/Fetch.lean ====
section
/-! SUPPORT. What fetch reads and what one step can do. -/

namespace Sys2Proof.Machine

/-- Fetched cells are bytes. -/
theorem fetchCells_ok {s : State} {addr k w : Nat} (h : fetchCells s addr k = .ok w) :
    ∀ j < k, 0 ≤ (s.cell (addr + j)).toInt ∧ (s.cell (addr + j)).toInt ≤ 255 := by
  induction k generalizing addr w with
  | zero => intro j hj; omega
  | succ k ih =>
    unfold fetchCells at h
    simp only at h
    split at h
    · cases h
    · next hc =>
      split at h
      · cases h
      · next u hu =>
        intro j hj
        cases j with
        | zero => rw [Nat.add_zero]; omega
        | succ j =>
          have := ih hu j (by omega)
          rwa [Nat.add_assoc, Nat.add_comm 1] at this

/-- The one fault of the fetch loop: the lowest cell that is not a byte. -/
theorem fetchCells_error {s : State} {addr k : Nat} {f : Fault} (h : fetchCells s addr k = .error f) :
    ∃ j < k, f = .fetchNonByte (addr + j) ∧ ((s.cell (addr + j)).toInt < 0 ∨ 255 < (s.cell (addr + j)).toInt) ∧
      ∀ i < j, 0 ≤ (s.cell (addr + i)).toInt ∧ (s.cell (addr + i)).toInt ≤ 255 := by
  induction k generalizing addr with
  | zero => cases h
  | succ k ih =>
    unfold fetchCells at h
    simp only at h
    split at h
    · next hc => cases h; exact ⟨0, by omega, rfl, by simpa using hc, by omega⟩
    · next hc =>
      split at h
      · next e he =>
        cases h
        obtain ⟨j, hj, rfl, hb, hl⟩ := ih he
        refine ⟨j + 1, by omega, by congr 1; omega, by rwa [Nat.add_comm j, ← Nat.add_assoc], fun i hi => ?_⟩
        cases i with
        | zero => rw [Nat.add_zero]; omega
        | succ i =>
          have := hl i (by omega)
          rwa [Nat.add_assoc, Nat.add_comm 1] at this
      · cases h

/-- What the fetch of an instruction needed. -/
theorem fetchInstr_ok {s : State} {i : Instr} (h : fetchInstr s = .ok i) :
    ∃ f w, formatByOpcode (opcodeNibble s) = some f ∧ s.pc + f.size ≤ s.memSize ∧ fetchCells s s.pc f.size = .ok w ∧
      i = decodeFormat f w := by
  unfold fetchInstr at h
  split at h
  · cases h
  · next f hf =>
    split at h
    · cases h
    · next w hw =>
      cases h
      unfold fetchBytes at hw
      split at hw
      · cases hw
      · exact ⟨f, w, hf, by omega, hw, rfl⟩

/-- The three faults of fetch, in their order. -/
theorem fetchInstr_error {s : State} {f : Fault} (h : fetchInstr s = .error f) :
    (formatByOpcode (opcodeNibble s) = none ∧ f = .unknownOpcode s.pc (opcodeNibble s)) ∨
      ∃ g, formatByOpcode (opcodeNibble s) = some g ∧
        ((s.memSize < s.pc + g.size ∧ f = .fetchOutOfBounds s.pc) ∨
          (s.pc + g.size ≤ s.memSize ∧ fetchCells s s.pc g.size = .error f)) := by
  unfold fetchInstr at h
  split at h
  · next hn => cases h; exact .inl ⟨hn, rfl⟩
  · next g hg =>
    split at h
    · next e he =>
      cases h
      unfold fetchBytes at he
      split at he
      · next hm => cases he; exact .inr ⟨g, hg, .inl ⟨hm, rfl⟩⟩
      · exact .inr ⟨g, hg, .inr ⟨by omega, he⟩⟩
    · cases h

theorem State.running_iff (s : State) : s.running = true ↔ s.fault = none ∧ s.pc < s.progLen := by
  simp [State.running]

/-- What the gate of a step decides. -/
theorem phase_cases (s : State) :
    (∃ f, s.fault = some f ∧ phase s = .faulted f) ∨
      (s.fault = none ∧ s.progLen ≤ s.pc ∧ phase s = .halted) ∨
      (s.running = true ∧ ∃ f, fetchInstr s = .error f ∧ phase s = .trap f) ∨
      (s.running = true ∧ ∃ i, fetchInstr s = .ok i ∧ phase s = .run i) := by
  simp only [State.running_iff]
  unfold phase
  split
  · next f hf => exact .inl ⟨f, hf, rfl⟩
  · next hf =>
    split
    · next hp =>
      split
      · next f he => exact .inr (.inr (.inl ⟨⟨hf, hp⟩, f, he, rfl⟩))
      · next i hi => exact .inr (.inr (.inr ⟨⟨hf, hp⟩, i, hi, rfl⟩))
    · next hp => exact .inr (.inl ⟨hf, by omega, rfl⟩)

/-- Everything one step can do. -/
theorem step_cases (s : State) :
    (∃ f, s.fault = some f ∧ step s = .fault f) ∨
      (s.fault = none ∧ s.progLen ≤ s.pc ∧ step s = .next s) ∨
      (s.running = true ∧ ∃ f, fetchInstr s = .error f ∧ step s = .next (takeFault f s)) ∨
      (s.running = true ∧ ∃ i, fetchInstr s = .ok i ∧ step s = exec i s) := by
  unfold step
  rcases phase_cases s with ⟨f, h, e⟩ | ⟨h, h', e⟩ | ⟨h, f, h', e⟩ | ⟨h, i, h', e⟩ <;> rw [e]
  · exact .inl ⟨f, h, rfl⟩
  · exact .inr (.inl ⟨h, h', rfl⟩)
  · exact .inr (.inr (.inl ⟨h, f, h', rfl⟩))
  · exact .inr (.inr (.inr ⟨h, i, h', rfl⟩))

end Sys2Proof.Machine
end

