-- ==== Sys2Proof/Laws/PerInstr.lean ====
section
/-! SUPPORT. Facts about every instruction as syntax, one lemma per constructor. -/

namespace Sys2Proof.Laws.WfEncodes

/-- A well-formed instruction has a word, and its encoding has the length of its format. -/
def Statement (i : Instr) : Prop :=
  i.wf = true → ∃ w bs, i.word = .ok w ∧ encode i = .ok bs ∧ bs.length = ilen i.mnemonic

theorem of_word {i : Instr} (h : i.wf = true → ∃ w, i.word = .ok w) : Statement i := by
  intro hwf
  obtain ⟨w, hw⟩ := h hwf
  refine ⟨w, serialize w (formatOf i.mnemonic).size, hw, ?_, serialize_length _ _⟩
  have hw' : encodeWord i.mnemonic i.values = .ok w := hw
  unfold encode encodeFields
  rw [hw']

theorem packs_reg (r : RegIdx) : ∃ p, pack (r.val : Int) 7 = .ok p := by
  have h := r.isLt
  rcases pack_eq (r.val : Int) 7 (by decide) with ⟨-, -, e⟩ | ⟨h', -⟩
  · exact ⟨_, e⟩
  · omega

theorem packs_unsigned {v : Int} {n : Nat} (hn : 1 ≤ n) (h : unsignedFits n v = true) : ∃ p, pack v n = .ok p :=
  ⟨_, pack_unsigned hn h⟩

theorem packs_signed {v : Int} {n : Nat} (hn : 1 ≤ n) (h : signedFits n v = true) : ∃ p, pack v n = .ok p := by
  have h' : -(2 ^ (n - 1)) ≤ v ∧ v ≤ 2 ^ (n - 1) - 1 := by simpa [signedFits] using h
  have h2 : (2 : Int) ^ (n - 1) ≤ 2 ^ n := by exact_mod_cast Nat.pow_le_pow_right (by decide) (Nat.sub_le n 1)
  rcases pack_eq v n hn with ⟨-, -, e⟩ | ⟨h3, -⟩
  · exact ⟨_, e⟩
  · omega

theorem packs_two {f g : Field} {v u : Int} (hf : ∃ p, pack v f.width = .ok p) (hg : ∃ p, pack u g.width = .ok p)
    (w : Nat) : ∃ x, packFields [f, g] [v, u] w = .ok x := by
  obtain ⟨p, hp⟩ := hf
  obtain ⟨q, hq⟩ := hg
  rw [packFields_cons_of_pack hp, packFields_cons_of_pack hq]
  exact ⟨_, rfl⟩

theorem packs_three {f g k : Field} {v u t : Int} (hf : ∃ p, pack v f.width = .ok p) (hg : ∃ p, pack u g.width = .ok p)
    (hk : ∃ p, pack t k.width = .ok p) (w : Nat) : ∃ x, packFields [f, g, k] [v, u, t] w = .ok x := by
  obtain ⟨p, hp⟩ := hf
  rw [packFields_cons_of_pack hp]
  exact packs_two hg hk _

theorem lc (b : RegIdx) (c : Int) : Statement (.lc b c) := of_word fun h =>
  packs_two (f := ⟨.B, 4, 7, .reg⟩) (g := ⟨.C, 11, 20, .simm⟩) (packs_reg b) (packs_signed (by decide) h) 0

theorem stm (b : Nat) (c : RegIdx) : Statement (.stm b c) := of_word fun h =>
  packs_two (f := ⟨.B, 4, 10, .imm⟩) (g := ⟨.C, 14, 7, .reg⟩) (packs_unsigned (by decide) h) (packs_reg c) 9

theorem ldm (b : Int) (c d : RegIdx) : Statement (.ldm b c d) := of_word fun h =>
  packs_three (f := ⟨.B, 4, 15, .simm⟩) (g := ⟨.C, 19, 7, .reg⟩) (k := ⟨.D, 26, 7, .reg⟩)
    (packs_signed (by decide) h) (packs_reg c) (packs_reg d) 13

theorem ge (b : RegIdx) (c : Nat) (d : RegIdx) : Statement (.ge b c d) := of_word fun h =>
  packs_three (f := ⟨.B, 4, 7, .reg⟩) (g := ⟨.C, 11, 10, .imm⟩) (k := ⟨.D, 21, 7, .reg⟩)
    (packs_reg b) (packs_unsigned (by decide) h) (packs_reg d) 15

end Sys2Proof.Laws.WfEncodes
end

