-- ==== Sys2Proof/Laws/Run.lean ====
section
/-! SUPPORT. Runs: one step at a time, and the induction over a run packaged once. -/

namespace Sys2Proof.Machine

@[simp] theorem runSteps_zero (s : State) : runSteps 0 s = .next s := rfl

theorem coreRun_of_next (M : Host.Core) {s t : M.State} (h : M.step s = .next t) (k : Nat) :
    M.run (k + 1) s = M.run k t := by
  rw [Host.Core.run, h]

theorem coreRun_of_fault (M : Host.Core) {s : M.State} {f : M.Fault} (h : M.step s = .fault f) (k : Nat) :
    M.run (k + 1) s = .fault f := by
  rw [Host.Core.run, h]

theorem runSteps_of_next {s t : State} (h : step s = .next t) (k : Nat) : runSteps (k + 1) s = runSteps k t :=
  coreRun_of_next Sys2Proof.core h k

theorem runSteps_of_fault {s : State} {f : Fault} (h : step s = .fault f) (k : Nat) : runSteps (k + 1) s = .fault f :=
  coreRun_of_fault Sys2Proof.core h k

/-- A step is never refused. -/
theorem step_answers (s : State) : (∃ t, step s = .next t) ∨ ∃ f, s.fault = some f ∧ step s = .fault f := by
  rcases step_cases s with ⟨f, h, e⟩ | ⟨-, -, e⟩ | ⟨-, f, -, e⟩ | ⟨-, i, -, e⟩
  · exact .inr ⟨f, h, e⟩
  · exact .inl ⟨s, e⟩
  · exact .inl ⟨_, e⟩
  · obtain ⟨t, ht⟩ := exec_next i s
    exact .inl ⟨t, e.trans ht⟩

/-- What every step keeps, every run keeps. -/
theorem runSteps_keeps (P : State → Prop) (hstep : ∀ s t, P s → step s = .next t → P t) (k : Nat) {s t : State}
    (hs : P s) (h : runSteps k s = .next t) : P t := by
  induction k generalizing s with
  | zero => cases h; exact hs
  | succ k ih =>
    rcases step_answers s with ⟨u, hu⟩ | ⟨f, -, hf⟩
    · rw [runSteps_of_next hu] at h
      exact ih (hstep s u hs hu) h
    · rw [runSteps_of_fault hf] at h
      cases h

end Sys2Proof.Machine
end

