-- ==== Sys2Proof/Tests/Slice0.lean ====
section
/-! SUPPORT. Tests. Expected values come from `95_test_vectors.md` and from the layouts of `30_encoding.md`, calculated by
hand; the second half shows, for each statement with hypotheses, that they can be met. -/

namespace Sys2Proof.Tests

-- Many small theorems: one after the other keeps the number of threads down.
set_option Elab.async false

open Sys2Proof.Machine

/-! ### Well-formedness: each check refuses an ill-formed term -/

theorem test_wf_lc : (Instr.lc 0 524288).wf = false ∧ (Instr.lc 0 (-524289)).wf = false ∧
    (Instr.lc 0 524287).wf = true ∧ (Instr.lc 0 (-524288)).wf = true := by decide
theorem test_wf_stm : (Instr.stm 1024 0).wf = false ∧ (Instr.stm 1023 0).wf = true := by decide
theorem test_wf_ldm : (Instr.ldm 16384 0 0).wf = false ∧ (Instr.ldm (-16385) 0 0).wf = false ∧
    (Instr.ldm 16383 0 0).wf = true ∧ (Instr.ldm (-16384) 0 0).wf = true := by decide
theorem test_wf_ge : (Instr.ge 0 1024 0).wf = false ∧ (Instr.ge 0 1023 0).wf = true := by decide
theorem test_canonical_refuses : Field.canonical ⟨.B, 4, 7, .reg⟩ 128 = false ∧
    Field.canonical ⟨.B, 4, 7, .reg⟩ (-1) = false ∧ Field.canonical ⟨.C, 11, 10, .imm⟩ 1024 = false ∧
    Field.canonical ⟨.C, 11, 20, .simm⟩ 524288 = false := by decide

/-! ### Decoding: words written out bit by bit, fields separated as in R63 to R66 -/

theorem test_decode_lc : decodeWord 0b0_11111111111111111011_0000011_0000 = some (.lc 3 (-5)) := by decide
theorem test_decode_stm : decodeWord 0b000_0000011_0001100100_1001 = some (.stm 100 3) := by decide
theorem test_decode_ldm : decodeWord 0b0000000_0000010_0000101_000000000001000_1101 = some (.ldm 8 5 2) := by decide
theorem test_decode_ge : decodeWord 0b0000_0000001_0000110010_0000010_1111 = some (.ge 2 50 1) := by decide
/-- Section 2.3: unused bits set, re-encoded bytes with them clear. -/
theorem test_decode_unused_bits : decodeBytes [0x30, 0xD8, 0xFF, 0xFF] = .ok (.lc 3 (-5), []) ∧
    decodeBytes [0x49, 0xC6, 0xE0] = .ok (.stm 100 3, []) ∧
    decodeBytes [0x8D, 0x00, 0x28, 0x08, 0xFE] = .ok (.ldm 8 5 2, []) ∧
    decodeBytes [0x2F, 0x90, 0x21, 0xF0] = .ok (.ge 2 50 1, []) := ⟨rfl, rfl, rfl, rfl⟩
theorem test_decode_refuses : decodeBytes [] = .error .noBytes ∧
    decodeBytes [0x8D, 0x00, 0x28, 0x08] = .error (.truncated 5 4) ∧
    decodeBytes [0x0E, 0, 0, 0, 0] = .error (.unknownOpcode 14) := ⟨rfl, rfl, rfl⟩
theorem test_decodeTableWord : decodeTableWord 32 0x7FFFD830 = some (.lc 3 (-5)) ∧
    decodeTableWord 24 0x00C649 = some (.stm 100 3) ∧ decodeTableWord 40 0x0828008D = some (.ldm 8 5 2) ∧
    decodeTableWord 32 0x0021902F = some (.ge 2 50 1) ∧ decodeTableWord 8 0x07 = none := by decide

/-! ### The codec and the Encoder: section 2 of the test vectors -/

theorem test_pack_boundaries : pack 1048576 20 = .error ⟨1048576, 20⟩ ∧ pack (-524289) 20 = .error ⟨-524289, 20⟩ ∧
    pack 524287 20 = .ok 0x7FFFF ∧ pack (-524288) 20 = .ok 0x80000 ∧ pack (-65) 7 = .error ⟨-65, 7⟩ ∧
    pack (-64) 7 = .ok 0x40 ∧ pack 128 7 = .error ⟨128, 7⟩ ∧ pack (-10) 15 = .ok 0x7FF6 :=
  ⟨rfl, rfl, rfl, rfl, rfl, rfl, rfl, rfl⟩
theorem test_encode : encode (.lc 3 (-5)) = .ok [0x30, 0xD8, 0xFF, 0x7F] ∧ encode (.stm 1023 127) = .ok [0xF9, 0xFF, 0x1F] ∧
    encode (.ldm (-10) 7 2) = .ok [0x6D, 0xFF, 0x3F, 0x08, 0x00] ∧ encode (.ge 127 1023 127) = .ok [0xFF, 0xFF, 0xFF, 0x0F] :=
  ⟨rfl, rfl, rfl, rfl⟩
theorem test_encode_aliases : encodeFields .lc [-1, 0] = .ok [0xF0, 0x07, 0x00, 0x00] ∧
    encodeFields .stm [-1, 0] = .ok [0xF9, 0x3F, 0x00] ∧ encodeFields .ldm [32767, 0, 0] = .ok [0xFD, 0xFF, 0x07, 0x00, 0x00] :=
  ⟨rfl, rfl, rfl⟩
theorem test_encode_errors : encodeFields .lc [128, 1048576] = .error (.fieldOverflow .B 128 7) ∧
    encodeFields .stm [0, -65] = .error (.fieldOverflow .C (-65) 7) ∧
    encodeFields .ldm [0, 0, 128] = .error (.fieldOverflow .D 128 7) ∧
    encodeFields .ge [0, -513, 0] = .error (.fieldOverflow .C (-513) 10) := ⟨rfl, rfl, rfl, rfl⟩

/-! ### One step on a small state -/

/-- A state of 101 cells with one register and one cell set, at pc 4 of a program of 9 bytes. -/
def small (r : RegIdx) (v : Int) (a : Nat) (u : Int) : State :=
  { ({ State.reset with memSize := 101, progLen := 9, pc := 4 }.setReg r (Word.ofInt v)) with
    mem := Memory.write [] a (Word.ofInt u) }

/-- The next state of an outcome. -/
def after (o : Host.Outcome State Fault Refusal) : State :=
  match o with
  | .next t => t
  | .fault _ => State.reset
  | .refused _ => State.reset

theorem test_lc_replaces : ((after (exec (.lc 127 (-524288)) (small 127 1 0 0))).reg 127).toInt = -524288 := by decide +kernel
theorem test_lc_r0 : ((after (exec (.lc 0 7) (small 127 1 0 0))).reg 0).toInt = 7 ∧
    (after (exec (.lc 0 7) (small 127 1 0 0))).pc = 8 := by decide +kernel
theorem test_stm_whole : ((after (exec (.stm 100 3) (small 3 (-5) 100 9))).cell 100).toInt = -5 ∧
    (after (exec (.stm 100 3) (small 3 (-5) 100 9))).pc = 7 := by decide +kernel
theorem test_stm_out_of_bounds : (after (exec (.stm 101 3) (small 3 (-5) 100 9))).fault = some (.outOfBounds 101) ∧
    (after (exec (.stm 101 3) (small 3 (-5) 100 9))).pc = 4 := by decide +kernel
theorem test_ldm_same_register : ((after (exec (.ldm 0 2 2) (small 2 100 100 (-3)))).reg 2).toInt = -3 ∧
    (after (exec (.ldm 0 2 2) (small 2 100 100 (-3)))).pc = 9 := by decide +kernel
theorem test_ldm_no_wrap : (after (exec (.ldm (-16384) 1 2) (small 2 (-524288) 0 0))).fault =
    some (.outOfBounds (-540672)) := by decide +kernel
theorem test_ge_signed : ((after (exec (.ge 5 100 1) (small 5 (-1) 100 0))).reg 1).toInt = 0 ∧
    ((after (exec (.ge 0 100 1) (small 5 0 100 (-1)))).reg 1).toInt = 1 := by decide +kernel
theorem test_ge_same_register : ((after (exec (.ge 2 100 2) (small 2 5 100 5))).reg 2).toInt = 1 ∧
    (after (exec (.ge 2 100 2) (small 2 5 100 5))).pc = 8 := by decide +kernel
/-- Section 2.8: -5 has nibble 11; 265 has nibble 9 and is no byte; an LDM two cells before the end. -/
theorem test_fetch_faults : fetchInstr (small 0 0 4 (-5)) = .error (.unknownOpcode 4 11) ∧
    fetchInstr (small 0 0 4 265) = .error (.fetchNonByte 4) ∧
    fetchInstr { small 0 0 99 13 with pc := 99 } = .error (.fetchOutOfBounds 99) ∧
    fetchInstr { small 0 0 98 9 with pc := 98 } = .ok (.stm 0 0) := ⟨rfl, rfl, rfl, rfl⟩
theorem test_fetch_word : (after (step (State.reset.withFetchWord 40 0x0828008D))).pc = 5 ∧
    fetchInstr (State.reset.withFetchWord 40 0x0828008D) = .ok (.ldm 8 5 2) := ⟨rfl, rfl⟩
theorem test_launch_refused : launch 2 [1, 2, 3] = .refused (.imageTooLong 3 2) := rfl
theorem test_dump : (small 0 0 99 (-3)).dump 98 200 = [(98, 0), (99, -3), (100, 0)] := by decide +kernel

/-! ### The assembler -/

/-- Program P1 of the test vectors, with a comment, a blank line and aliases. -/
theorem test_assemble : assemble "load_const r3, -0x5 ; c\n\n STM 100,R3".toList =
    .ok [0x30, 0xD8, 0xFF, 0x7F, 0x49, 0xC6, 0x00] := by decide +kernel
theorem test_assemble_order : assembleLine 1 "LDM r5, r2, 8".toList = .ok [0x8D, 0x00, 0x28, 0x08, 0x00] ∧
    assembleLine 1 "CMP_GE r1 r2 50".toList = .ok [0x2F, 0x90, 0x21, 0x00] := by decide +kernel
theorem test_assemble_errors : assemble "LC r1, 1\nADD r1".toList = .error (.unknownMnemonic 2 "ADD".toList) ∧
    assemble "LC r1".toList = .error (.arity 1) ∧ assemble "STM r1, r2".toList = .error (.badOperand 1 "r1".toList) ∧
    assemble "LC 1, +2".toList = .error (.badOperand 1 "+2".toList) ∧
    assemble "LC 128, 0".toList = .error (.fieldOverflow 1 .B 128 7) := by decide +kernel
/-- A line of white space and a comment is blank, one of commas is not (R77, R88). -/
theorem test_assemble_blank : assembleLine 1 "\t ; LC".toList = .ok [] ∧
    assembleLine 3 " , ,# x".toList = .error (.unknownMnemonic 3 []) := by decide +kernel

/-! ### Witnesses: the hypotheses of each statement can be met -/

theorem witness_DecodeInvertsEncode : (Instr.lc 127 (-524288)).wf = true ∧ (Instr.stm 1023 127).wf = true ∧
    (Instr.ldm 16383 127 127).wf = true ∧ (Instr.ge 0 0 127).wf = true := by decide
/-- The least and the greatest accepted values, and canonical ones. -/
theorem witness_AcceptedValuesRoundTrip :
    List.Forall₂ (fun f v => accepted f.width v) (formatOf .lc).fields [-64, 1048575] ∧
    List.Forall₂ (fun f v => accepted f.width v) (formatOf .ge).fields [127, -512, 0] ∧
    List.Forall₂ (fun f v => accepted f.width v) (formatOf .ldm).fields [-16384, 127, 0] ∧
    List.Forall₂ (fun f v => f.canonical v = true) (formatOf .ldm).fields [-16384, 127, 0] := by decide
theorem witness_ReencodingClearsUnusedBits : decodeWord 0xFFFFD830 = some (.lc 3 (-5)) ∧
    0xFFFFD830 < 2 ^ (8 * ilen (Instr.lc 3 (-5)).mnemonic) ∧ decodeWord 0x00C649 = some (.stm 100 3) ∧
    0x00C649 < 2 ^ (8 * ilen (Instr.stm 100 3).mnemonic) := by decide
theorem witness_UnusedBitsAreIgnored : formatByOpcode (0xE0C649 % 16) = some stmFormat := rfl
theorem witness_EncoderWritesUnusedBitsZero : encodeWord .ge [127, 1023, 127] = .ok 0x0FFFFFFF := rfl
theorem witness_OpcodeNibbleIsIsolated : encodeFields .ldm [-1, 127, 127] = .ok [0xFD, 0xFF, 0xFF, 0xFF, 0x01] := rfl
theorem witness_EncoderSucceedsExactlyOnAcceptedValues :
    (∃ bs, encodeFields .stm [-512, 127] = .ok bs) ∧
    List.Forall₂ (fun f v => accepted f.width v) (formatOf .stm).fields [-512, 127] := ⟨⟨_, rfl⟩, by decide⟩
theorem witness_EncoderNamesTheFirstBadField : [(0 : Int), 1048576].length = (formatOf .lc).fields.length ∧
    encodeWord .lc [0, 1048576] = .error (.fieldOverflow .C 1048576 20) ∧
    encodeWord .lc [128, 1048576] = .error (.fieldOverflow .B 128 7) := ⟨rfl, rfl, rfl⟩
theorem witness_UnpackAfterPack : (1 ≤ 7 ∧ pack (-64) 7 = .ok 64) ∧ (1 ≤ 7 ∧ pack 127 7 = .ok 127) ∧
    (1 ≤ 1 ∧ pack (-1) 1 = .ok 1) := ⟨⟨by decide, rfl⟩, ⟨by decide, rfl⟩, ⟨by decide, rfl⟩⟩
theorem witness_UnpackSignedIsSignExtension : (1 ≤ 20 ∧ 524288 < 2 ^ 20 ∧ 2 ^ (20 - 1) ≤ 524288) ∧
    (1 ≤ 20 ∧ 524287 < 2 ^ 20 ∧ 524287 < 2 ^ (20 - 1)) := by decide
theorem witness_DecodeWordReadsTheSlices : (0xFFFFFFFFF0#40).extractLsb 3 0 = 0 ∧ (0xFFFFFFFFF9#40).extractLsb 3 0 = 9 ∧
    (0xFFFFFFFFFD#40).extractLsb 3 0 = 13 ∧ (0xFFFFFFFFFF#40).extractLsb 3 0 = 15 := by decide
theorem witness_DecodedInstructionsAreWellFormed : formatByOpcode (14 % 16) = none ∧
    formatByOpcode (0xFFFFFFFD % 16) = some ldmFormat := ⟨rfl, rfl⟩
theorem witness_OpcodeMap : decodeWord 0xFFFFFFFF = some (.ge 127 1023 127) := rfl
theorem witness_SerializedBytes : 0x1FFFFFFFF < 2 ^ (8 * 5) ∧ 4 < 5 ∧ encodeWord .ldm [-1, 127, 127] = .ok 0x1FFFFFFFD :=
  ⟨by decide, by decide, rfl⟩
theorem witness_DeserializeSumsTheBytes : 0xFFFFFF < 2 ^ (8 * 3) ∧ fetchBytes (small 0 0 98 255) 98 3 = .ok 255 :=
  ⟨by decide, rfl⟩
theorem witness_LengthComesFromTheFirstNibble : decodeBytes [0xF9, 0xFF, 0x1F, 0x57] = .ok (.stm 1023 127, [0x57]) := rfl
theorem witness_ImageConcatenatesEncodings : encodeImage [(.lc, [3, -5])] = .ok [0x30, 0xD8, 0xFF, 0x7F] ∧
    encodeImage [(.stm, [100, 3])] = .ok [0x49, 0xC6, 0x00] ∧ (Mnemonic.lc, [128, 0]) ∈ [(Mnemonic.stm, [100, 3]), (.lc, [128, 0])] ∧
    encodeFields .lc [128, 0] = .error (.fieldOverflow .B 128 7) := ⟨rfl, rfl, by decide, rfl⟩
theorem witness_LcLoadsItsConstant : signedFits 20 (-524288) = true ∧ signedFits 20 524287 = true ∧
    decodeWord 0x400007F0 = some (.lc 127 (-524288)) := by decide
theorem witness_StmStoresTheWholeRegister : (small 3 (-5) 100 9).mem.wf = true ∧ 100 < (small 3 (-5) 100 9).memSize := by
  decide +kernel
/-- The first and the last cell. -/
theorem witness_LdmLoadsTheWholeCell :
    (0 ≤ ((small 2 10 0 32).reg 2).toInt + -10 ∧ ((small 2 10 0 32).reg 2).toInt + -10 < (small 2 10 0 32).memSize) ∧
    (0 ≤ ((small 2 100 0 32).reg 2).toInt + 0 ∧ ((small 2 100 0 32).reg 2).toInt + 0 < (small 2 100 0 32).memSize) := by
  decide +kernel
theorem witness_GeComparesSigned : 100 < (small 2 5 100 5).memSize := by decide +kernel
theorem witness_OutOfBoundsAccessTraps : (small 2 100 0 0).memSize ≤ 101 ∧
    ((small 2 0 0 0).reg 2).toInt + -1 < 0 ∧ ((small 2 100 0 0).memSize : Int) ≤ ((small 2 100 0 0).reg 2).toInt + 1 := by
  decide +kernel
theorem witness_StoredValueLoadsBack : (small 2 90 100 0).mem.wf = true ∧ 100 < (small 2 90 100 0).memSize ∧
    ((small 2 90 100 0).reg 2).toInt + 10 = (100 : Nat) := by decide +kernel

/-- The state with the bytes of one instruction at the pc. -/
def holding (bytes : List Byte) : State :=
  { State.reset with mem := loadBytes 4 bytes [], memSize := 9, progLen := 9, pc := 4 }

theorem witness_StepRunsTheDecodedInstruction : (holding [0x8D, 0x00, 0x28, 0x08, 0x00]).running = true ∧
    decodeBytes [0x8D, 0x00, 0x28, 0x08, 0x00] = .ok (.ldm 8 5 2, []) ∧
    (∀ j < 5, (holding [0x8D, 0x00, 0x28, 0x08, 0x00]).cell (4 + j) =
      Word.ofByte (([0x8D, 0x00, 0x28, 0x08, 0x00] : List Byte).getD j 0)) ∧ 4 + 5 ≤ 9 :=
  ⟨by decide +kernel, rfl, by decide +kernel, by decide⟩
/-- One state for each clause: an undefined nibble, a fetch past the end, a non-byte in the second cell, a whole
instruction that ends with memory. -/
theorem witness_FetchFaultsInOrder :
    ((small 0 0 4 (-5)).running = true ∧ formatByOpcode ((Word.ofInt (-5)).toInt % 16).toNat = none) ∧
    ({ small 0 0 4 13 with memSize := 8 }.running = true ∧ formatByOpcode 13 = some ldmFormat ∧ 8 < 4 + ldmFormat.size) ∧
    ((small 0 0 5 (-1)).running = true ∧ formatByOpcode 0 = some lcFormat ∧ ¬ isByte ((small 0 0 5 (-1)).cell (4 + 1)) ∧
      isByte ((small 0 0 5 (-1)).cell (4 + 0))) ∧
    ((holding [0x8D, 0x00, 0x28, 0x08, 0x00]).running = true ∧ 4 + ldmFormat.size ≤ 9 ∧
      ∀ j < 5, isByte ((holding [0x8D, 0x00, 0x28, 0x08, 0x00]).cell (4 + j))) := by decide +kernel
theorem witness_FaultEntryKeepsEverythingElse : (small 0 0 4 (-5)).fault = none ∧
    step (small 0 0 4 (-5)) = .next (takeFault (.unknownOpcode 4 11) (small 0 0 4 (-5))) ∧
    (takeFault (.unknownOpcode 4 11) (small 0 0 4 (-5))).fault ≠ none := ⟨rfl, rfl, by decide +kernel⟩
theorem witness_EndedRunsStayEnded : { small 0 0 0 0 with pc := 9 }.halted ∧
    (takeFault (.outOfBounds (-1)) (small 0 0 0 0)).fault = some (.outOfBounds (-1)) :=
  ⟨⟨rfl, by decide +kernel⟩, rfl⟩
theorem witness_PcAdvancesByTheDispatchedLength : (holding [0x30, 0xD8, 0xFF, 0x7F]).running = true ∧
    step (holding [0x30, 0xD8, 0xFF, 0x7F]) = .next (after (step (holding [0x30, 0xD8, 0xFF, 0x7F]))) ∧
    (after (step (holding [0x30, 0xD8, 0xFF, 0x7F]))).fault = none := ⟨by decide +kernel, rfl, rfl⟩
theorem witness_ProgramLengthIsConstant : launch 3 [0x49, 0xC6, 0x00] = .next (after (launch 3 [0x49, 0xC6, 0x00])) ∧
    step (small 0 0 0 0) = .next (after (step (small 0 0 0 0))) ∧
    exec (.stm 100 3) (small 3 (-5) 0 0) = .next (after (exec (.stm 100 3) (small 3 (-5) 0 0))) := ⟨rfl, rfl, rfl⟩
/-- Two states that differ in a register and in a cell outside the five that fetch can read. -/
theorem witness_FetchReadsMemoryAnew : (small 1 2 9 7).pc = (small 0 0 3 1).pc ∧
    (small 1 2 9 7).memSize = (small 0 0 3 1).memSize ∧
    ∀ j < 5, (small 1 2 9 7).cell ((small 0 0 3 1).pc + j) = (small 0 0 3 1).cell ((small 0 0 3 1).pc + j) := by
  decide +kernel
/-- `STM 7, r1` at pc 4, storing 0x50 over the first byte of the next instruction (j = 0), and `STM 10, r1` over its last
(j = 3). -/
theorem witness_StoreIsSeenByTheNextFetch :
    (let s := { (holding [0x79, 0x40, 0x00]).setReg 1 (Word.ofInt 0x50) with memSize := 16 }
     s.mem.wf = true ∧ s.running = true ∧ fetchInstr s = .ok (.stm 7 1) ∧ 7 < s.memSize ∧
       step s = .next (after (step s)) ∧ 7 = (after (step s)).pc ∧ 0 < 4 ∧ 7 = (after (step s)).pc + 0 ∧
       fetchBytes (after (step s)) (after (step s)).pc 4 = .ok 0x50) ∧
    (let s := { (holding [0xA9, 0x40, 0x00]).setReg 1 (Word.ofInt 0x50) with memSize := 16 }
     s.mem.wf = true ∧ s.running = true ∧ fetchInstr s = .ok (.stm 10 1) ∧ 10 < s.memSize ∧
       step s = .next (after (step s)) ∧ 3 < 4 ∧ 10 = (after (step s)).pc + 3 ∧
       fetchBytes (after (step s)) (after (step s)).pc 4 = .ok 0x50000000) :=
  ⟨⟨rfl, rfl, rfl, by decide, rfl, rfl, by decide, rfl, rfl⟩, ⟨rfl, rfl, rfl, by decide, rfl, by decide, rfl, rfl⟩⟩
theorem witness_OnlyStmWritesMemory :
    (step (small 0 0 0 0) = .next (after (step (small 0 0 0 0))) ∧ ∀ b c, fetchInstr (small 0 0 0 0) ≠ .ok (.stm b c)) ∧
    (step (holding [0x79, 0x40, 0x00]) = .next (after (step (holding [0x79, 0x40, 0x00]))) ∧
      fetchInstr (holding [0x79, 0x40, 0x00]) = .ok (.stm 7 1)) :=
  ⟨⟨rfl, fun b c h => by
    rw [show fetchInstr (small 0 0 0 0) = .ok (.lc 0 0) from rfl] at h
    cases h⟩, rfl, rfl⟩
theorem witness_CellsAbove1023AreNeverWritten : (holding [0x79, 0x40, 0x00]).mem.wf = true ∧ 1024 ≤ 1024 ∧
    runSteps 1 (holding [0x79, 0x40, 0x00]) = .next (after (step (holding [0x79, 0x40, 0x00]))) := ⟨rfl, le_refl _, rfl⟩
theorem witness_ControlFlowIgnoresRegisters :
    step (holding [0x30, 0xD8, 0xFF, 0x7F]) = .next (after (step (holding [0x30, 0xD8, 0xFF, 0x7F]))) ∧
    step { holding [0x30, 0xD8, 0xFF, 0x7F] with regs := Vector.replicate 128 1 } =
      .next (after (step { holding [0x30, 0xD8, 0xFF, 0x7F] with regs := Vector.replicate 128 1 })) ∧
    (after (step (holding [0x30, 0xD8, 0xFF, 0x7F]))).fault = none ∧
    (after (step { holding [0x30, 0xD8, 0xFF, 0x7F] with regs := Vector.replicate 128 1 })).fault = none :=
  ⟨rfl, rfl, rfl, rfl⟩
/-- A running state, at the last instruction that memory can hold. -/
theorem witness_StepKeepsTheInvariant : (holding [0x8D, 0x00, 0x28, 0x08, 0x00]).Inv ∧
    step (holding [0x8D, 0x00, 0x28, 0x08, 0x00]) = .next (after (step (holding [0x8D, 0x00, 0x28, 0x08, 0x00]))) :=
  ⟨⟨⟨rfl, rfl⟩, ⟨by decide +kernel, by decide +kernel⟩, fun f h => by cases h⟩, rfl⟩
theorem witness_LaunchMeetsTheInvariant : launch 3 [0x49, 0xC6, 0x00] = .next (after (launch 3 [0x49, 0xC6, 0x00])) := rfl
/-- Four zero cells are `LC r0, 0` (R71). -/
theorem witness_StepKeepsValuesInRange : { State.reset with progLen := 4 }.mem.wf = true ∧
    { State.reset with progLen := 4 }.valuesFit ∧
    step { State.reset with progLen := 4 } = .next (after (step { State.reset with progLen := 4 })) := by
  refine ⟨rfl, ⟨fun i => ?_, fun a => ?_⟩, rfl⟩
  · have h : ({ State.reset with progLen := 4 } : State).reg i = 0 := by simp [State.reg, State.reset]
    rw [h]
    decide
  · have h : ({ State.reset with progLen := 4 } : State).cell a = 0 := rfl
    rw [h]
    decide
theorem witness_RunsStayInRange : launch 5 [0x0D, 0x00, 0x00, 0x00, 0x00] = .next (after (launch 5 [0x0D, 0x00, 0x00, 0x00, 0x00])) ∧
    runSteps 0 (after (launch 5 [0x0D, 0x00, 0x00, 0x00, 0x00])) = .next (after (launch 5 [0x0D, 0x00, 0x00, 0x00, 0x00])) ∧
    fetchInstr (after (launch 5 [0x0D, 0x00, 0x00, 0x00, 0x00])) = .ok (.ldm 0 0 0) := ⟨rfl, rfl, rfl⟩
/-- The bound is met exactly: 5 bytes left, 2 steps; and 9 bytes, 3 steps. -/
theorem witness_RunEndsWithinTheBound : enoughSteps (small 0 0 0 0) 2 ∧ enoughSteps { small 0 0 0 0 with pc := 0 } 3 := by
  unfold enoughSteps
  decide +kernel
theorem witness_EqualReadsEqualMemories : Memory.wf [(3, 7)] = true ∧
    ∀ a, Memory.read [(3, 7)] a = Memory.read (Memory.write [] 3 7) a := ⟨by decide, fun _ => rfl⟩
theorem witness_LaunchLoadsTheImage : ([0x49, 0xC6, 0xFF] : List Byte).length ≤ 3 ∧
    ([0x49, 0xC6, 0xFF] : List Byte)[2]? = some 0xFF := ⟨by decide, rfl⟩
theorem witness_LaunchClearsTheRest : launch 4 [0x49, 0xC6, 0x00] = .next (after (launch 4 [0x49, 0xC6, 0x00])) ∧
    ([0x49, 0xC6, 0x00] : List Byte).length ≤ 3 := ⟨rfl, by decide⟩
theorem witness_LaunchRefusesALongImage : 2 < ([0x49, 0xC6, 0x00] : List Byte).length := by decide
theorem witness_FaultCodes : encodeFields .stm [100, 3] = .ok [0x49, 0xC6, 0x00] ∧
    encodeFields .lc [128, 0] = .error (.fieldOverflow .B 128 7) := ⟨rfl, rfl⟩
theorem witness_MnemonicSpellings : (['S', 'T', 'M'], Mnemonic.stm) ∈ spellings ∧
    ['l', 'D', 'm'].map Char.toUpper = ['L', 'd', 'M'].map Char.toUpper ∧
    (∀ p ∈ spellings, ['N', 'O', 'P'].map Char.toUpper ≠ p.1) ∧ mnemonicOf ['N', 'O', 'P'] = none := by decide +kernel
theorem witness_WrongArityIsRefused : mnemonicOf ['g', 'e'] = some .ge ∧ [['1'], ['2']].length ≠ 3 := by decide +kernel
theorem witness_AssemblerOrdersOperands : mnemonicOf ['L', 'C'] = some .lc ∧ mnemonicOf ['S', 'T', 'M'] = some .stm ∧
    mnemonicOf ['L', 'D', 'M'] = some .ldm ∧ mnemonicOf ['G', 'E'] = some .ge ∧ parseReg ['r', '5'] = some 5 ∧
    parseReg ['2'] = some 2 ∧ parseInt ['-', '0', 'x', '1', '0'] = some (-16) ∧ parseInt ['8'] = some 8 := by decide +kernel
theorem witness_CommentsAndBlankLines : (∀ c ∈ ['L', 'C', ' ', '1'], c ≠ ';' ∧ c ≠ '#') ∧
    (∀ c ∈ [' ', '\t'] ++ [' '], c = ' ' ∨ c = '\t') := by simp
/-- A line that assembles, and one whose value is out of range. -/
theorem witness_LineAssemblesToItsEncoding :
    (lineTokens ['L', 'C', ' ', '1', ' ', '2'] = [['L', 'C'], ['1'], ['2']] ∧
      resolveTokens 7 ['L', 'C'] [['1'], ['2']] = .ok (.lc, [1, 2]) ∧
      encodeFields .lc [1, 2] = .ok [0x10, 0x10, 0x00, 0x00] ∧
      assembleLine 7 ['L', 'C', ' ', '1', ' ', '2'] = .ok [0x10, 0x10, 0x00, 0x00] ∧
      lcFormat.fields[1]? = some ⟨.C, 11, 20, .simm⟩ ∧ ([1, 2] : List Int)[1]? = some 2) ∧
    (lineTokens ['S', 'T', 'M', ' ', '1', ',', '1', '2', '8'] = [['S', 'T', 'M'], ['1'], ['1', '2', '8']] ∧
      resolveTokens 7 ['S', 'T', 'M'] [['1'], ['1', '2', '8']] = .ok (.stm, [1, 128]) ∧
      encodeFields .stm [1, 128] = .error (.fieldOverflow .C 128 7) ∧
      assembleLine 7 ['S', 'T', 'M', ' ', '1', ',', '1', '2', '8'] = .error (.fieldOverflow 7 .C 128 7)) := by decide +kernel
theorem witness_NonBlankLineIsOneInstruction :
    (∃ c ∈ stripComment ['G', 'E'], c ≠ ' ' ∧ c ≠ '\t' ∧ c ≠ '\r') ∧
    assembleLine 1 ['G', 'E', ' ', '0', ',', '0', ',', '0'] = .ok [0x0F, 0x00, 0x00, 0x00] ∧
    lineTokens ['G', 'E'] = [['G', 'E']] ∧ resolveTokens 1 ['G', 'E'] [] = .error (.arity 1) ∧
    (∃ c ∈ stripComment [','], c ≠ ' ' ∧ c ≠ '\t' ∧ c ≠ '\r') ∧ lineTokens [','] = [] :=
  ⟨⟨'G', by decide +kernel, by decide⟩, by decide +kernel, by decide +kernel, by decide +kernel,
    ⟨',', by decide +kernel, by decide⟩, by decide +kernel⟩
theorem witness_AssemblyConcatenatesLines : assembleLines 1 ["LC r3, -5".toList] = .ok [0x30, 0xD8, 0xFF, 0x7F] ∧
    assembleLines 2 ["STM 100, r3".toList] = .ok [0x49, 0xC6, 0x00] ∧ assembleLines 2 ["LC 1".toList] = .error (.arity 2) ∧
    ∀ c ∈ ['L', 'C', ' ', '1'], c ≠ '\n' := ⟨by decide +kernel, by decide +kernel, by decide +kernel, by simp⟩

end Sys2Proof.Tests
end

/-! PROOFS. The program length `L` (`10_state.md` R25): set by a launch, kept by every step, and read by the run
condition alone. -/

namespace Sys2Proof.Machine

/-! ### `L` is set by a launch and kept by a step -/

/-- The state of a launch that is not refused, and that the image fitted the memory. -/
theorem launch_eq_next_iff (memSize : Nat) (image : List Byte) (s : State) :
    launch memSize image = .next s ↔ image.length ≤ memSize ∧
      s = { State.reset with mem := loadBytes 0 image [], progLen := image.length, memSize := memSize } := by
  unfold launch
  split
  · next h => simp [h, eq_comm]
  · next h => simp [h]

theorem exec_progLen {i : Instr} {s t : State} (h : exec i s = .next t) : t.progLen = s.progLen := by
  rcases exec_cases i s with ⟨_, -, e⟩ | ⟨_, _, -, -, e⟩ | ⟨_, _, -, -, e⟩ <;> rw [e] at h
  · cases h; exact takeFault_progLen _ s
  · cases h; rw [advance_progLen, State.setReg_progLen]
  · cases h; rw [advance_progLen, State.setCell_progLen]

theorem step_progLen {s t : State} (h : step s = .next t) : t.progLen = s.progLen := by
  rcases step_cases s with ⟨f, -, e⟩ | ⟨-, -, e⟩ | ⟨-, f, -, e⟩ | ⟨-, i, -, e⟩ <;> rw [e] at h
  · cases h
  · cases h; rfl
  · cases h; exact takeFault_progLen f s
  · exact exec_progLen h

/-! ### Fetch does not read `L` -/

/-- The fetch loop reads nothing of the state but the cells it is asked for. -/
theorem fetchCells_congr {s t : State} {addr k : Nat} (h : ∀ j < k, t.cell (addr + j) = s.cell (addr + j)) :
    fetchCells t addr k = fetchCells s addr k := by
  induction k generalizing addr with
  | zero => rfl
  | succ k ih =>
    have hhead : t.cell addr = s.cell addr := h 0 (Nat.succ_pos k)
    have htail : fetchCells t (addr + 1) k = fetchCells s (addr + 1) k := ih fun j hj => by
      rw [Nat.add_assoc, Nat.add_comm 1]
      exact h (j + 1) (Nat.succ_lt_succ hj)
    simp only [fetchCells, hhead, htail]

theorem fetchBytes_congr {s t : State} {addr k : Nat} (hsize : t.memSize = s.memSize)
    (h : ∀ j < k, t.cell (addr + j) = s.cell (addr + j)) : fetchBytes t addr k = fetchBytes s addr k := by
  simp only [fetchBytes, hsize, fetchCells_congr h]

theorem opcodeNibble_congr {s t : State} (h : t.cell t.pc = s.cell s.pc) : opcodeNibble t = opcodeNibble s := by
  simp only [opcodeNibble, h]

/-- Of the parts of a state, fetch reads the pc, the memory and its size. -/
theorem fetchInstr_congr_of_mem {s t : State} (hpc : t.pc = s.pc) (hsize : t.memSize = s.memSize)
    (hmem : t.mem = s.mem) : fetchInstr t = fetchInstr s := by
  have hcell (a : Nat) : t.cell a = s.cell a := congrArg (·.read a) hmem
  have hnibble : opcodeNibble t = opcodeNibble s := opcodeNibble_congr (by rw [hpc, hcell])
  have hbytes (k : Nat) : fetchBytes t s.pc k = fetchBytes s s.pc k := fetchBytes_congr hsize fun _ _ => hcell _
  simp only [fetchInstr, hnibble, hpc, hbytes]

/-! ### No instruction reads `L` -/

/-- The end of an instruction passes any `L` through: the fault or the write it ends in is the same. -/
theorem finish_with_progLen {m : Mnemonic} {s t : State} {r : Except Fault State} (n : Nat)
    (h : finish m s r = .next t) :
    finish m { s with progLen := n } (r.map fun u => { u with progLen := n }) = .next { t with progLen := n } := by
  cases r <;> cases h <;> rfl

theorem memWrite_with_progLen (s : State) (addr : Int) (v : Word) (n : Nat) :
    memWrite { s with progLen := n } addr v = (memWrite s addr v).map fun u => { u with progLen := n } := by
  have hbounds : State.inBounds { s with progLen := n } addr = s.inBounds addr := rfl
  unfold memWrite
  rw [hbounds]
  cases s.inBounds addr <;> rfl

/-- What LDM and GE do, a register set to a value made from a cell, commutes with a change of `L`. -/
theorem memRead_map_setReg_with_progLen (s : State) (addr : Int) (d : RegIdx) (g : Word → Word) (n : Nat) :
    ((memRead { s with progLen := n } addr).map fun v => State.setReg { s with progLen := n } d (g v)) =
      ((memRead s addr).map fun v => s.setReg d (g v)).map fun u => { u with progLen := n } := by
  have hread : memRead { s with progLen := n } addr = memRead s addr := rfl
  rw [hread]
  cases memRead s addr <;> rfl

theorem exec_with_progLen {i : Instr} {s t : State} (n : Nat) (h : exec i s = .next t) :
    exec i { s with progLen := n } = .next { t with progLen := n } := by
  cases i with
  | lc b c => exact finish_with_progLen (m := .lc) (s := s) (r := .ok (s.setReg b (constant c))) n h
  | stm b c =>
    exact (congrArg (finish .stm _) (memWrite_with_progLen s _ (s.reg c) n)).trans (finish_with_progLen n h)
  | ldm b c d =>
    exact (congrArg (finish .ldm _) (memRead_map_setReg_with_progLen s _ c (fun v => v) n)).trans
      (finish_with_progLen n h)
  | ge b c d =>
    exact (congrArg (finish .ge _) (memRead_map_setReg_with_progLen s _ d (geResult (s.reg b)) n)).trans
      (finish_with_progLen n h)

/-- Settles O31: one clause each for the launch, the step, the fetch and the instruction. -/
theorem programLengthIsConstant : Obligations.ProgramLengthIsConstant := by
  unfold Obligations.ProgramLengthIsConstant
  refine ⟨fun memSize image s h => ?_, fun _ _ => step_progLen, fun s n => fetchInstr_congr_of_mem rfl rfl rfl,
    fun _ _ _ n => exec_with_progLen n⟩
  obtain ⟨-, rfl⟩ := (launch_eq_next_iff memSize image s).1 h
  rfl

end Sys2Proof.Machine

/-! PROOFS. The format table and the decoder's use of it (`30_encoding.md` R67, R70, R73): the opcode nibble alone selects
the format, and with it the length. -/

namespace Sys2Proof

/-! ### The format table -/

theorem mem_instrFormats (f : Format) :
    f ∈ instrFormats ↔ f = lcFormat ∨ f = stmFormat ∨ f = ldmFormat ∨ f = geFormat := by
  simp [instrFormats]

/-- Settles O14: the four entries one by one, each a finite check. -/
theorem formatTableInvariants : Obligations.FormatTableInvariants := by
  unfold Obligations.FormatTableInvariants
  refine ⟨fun f hf => ?_, by decide, by decide⟩
  rcases (mem_instrFormats f).1 hf with rfl | rfl | rfl | rfl
  · exact ⟨by decide, by decide, _, rfl, rfl⟩
  · exact ⟨by decide, by decide, _, rfl, rfl⟩
  · exact ⟨by decide, by decide, _, rfl, rfl⟩
  · exact ⟨by decide, by decide, _, rfl, rfl⟩

/-! ### What a decoded instruction says of its opcode -/

/-- A word that decodes has an entry for its nibble, and is read by that entry's format. -/
theorem decodeWord_eq_some_iff (w : Nat) (i : Instr) :
    decodeWord w = some i ↔ ∃ f, formatByOpcode (w % 16) = some f ∧ decodeFormat f w = i := by
  simp [decodeWord]

/-- The entry that a nibble selects is the format of whatever is decoded with it. -/
theorem formatByOpcode_eq_formatOf_decoded {a : Nat} {f : Format} (h : formatByOpcode a = some f) (w : Nat) :
    formatByOpcode a = some (formatOf (decodeFormat f w).mnemonic) := by
  obtain ⟨hf, -⟩ := formatOf_of_formatByOpcode h
  rw [decodeFormat_mnemonic, hf, h]

/-- Settles O15: the sixteen values are looked up, and a decoded word's format is the one its nibble selected. -/
theorem opcodeMap : Obligations.OpcodeMap := by
  unfold Obligations.OpcodeMap
  refine ⟨rfl, rfl, rfl, rfl, rfl, rfl, rfl, rfl, by decide, fun w i h => ?_⟩
  obtain ⟨f, hf, rfl⟩ := (decodeWord_eq_some_iff w i).1 h
  exact formatByOpcode_eq_formatOf_decoded hf w

/-- What a list of bytes that decodes has gone through: an entry for the first nibble, and bytes enough for it. -/
theorem decodeBytes_cons_ok {b : Byte} {bs rest : List Byte} {i : Instr}
    (h : decodeBytes (b :: bs) = .ok (i, rest)) :
    ∃ f, formatByOpcode (b.toNat % 16) = some f ∧ f.size ≤ (b :: bs).length ∧
      i = decodeFormat f (deserialize ((b :: bs).take f.size)) ∧ rest = (b :: bs).drop f.size := by
  rcases decodeBytes_cons b bs with ⟨-, e⟩ | ⟨f, hf, ⟨-, e⟩ | ⟨hl, e⟩⟩ <;> rw [e] at h
  · cases h
  · cases h
  · cases h
    exact ⟨f, hf, hl, rfl, rfl⟩

/-- Settles O18: the entry of the first nibble is the decoded instruction's format, so its size is the length. -/
theorem lengthComesFromTheFirstNibble : Obligations.LengthComesFromTheFirstNibble := by
  unfold Obligations.LengthComesFromTheFirstNibble
  intro b bs i rest h
  obtain ⟨f, hf, hl, rfl, rfl⟩ := decodeBytes_cons_ok h
  have hformat := formatByOpcode_eq_formatOf_decoded hf (deserialize ((b :: bs).take f.size))
  have hsize : ilen (decodeFormat f (deserialize ((b :: bs).take f.size))).mnemonic = f.size :=
    congrArg Format.size (Option.some.inj (hformat.symm.trans hf))
  rw [hsize]
  exact ⟨hformat, hl, rfl⟩

end Sys2Proof

/-! PROOFS. The assembler's text front end (`30_encoding.md` R77 to R85): operands, comments and white space, and the line
that ends in the Encoder. -/

namespace Sys2Proof.Machine

/-! ### Operands -/

/-- A number of operands other than the number of fields is refused. -/
theorem resolveTokens_of_length_ne {t : List Char} {m : Mnemonic} {ops : List (List Char)} (n : Nat)
    (hm : mnemonicOf t = some m) (hl : ops.length ≠ (formatOf m).fields.length) :
    resolveTokens n t ops = .error (.arity n) := by
  simp only [resolveTokens, hm, if_neg hl]

/-- The converse of `resolveTokens_ok`. -/
theorem resolveTokens_of_resolveFields {n : Nat} {t : List Char} {m : Mnemonic} {ops : List (List Char)} {vs : List Int}
    (hm : mnemonicOf t = some m) (hl : ops.length = (formatOf m).fields.length)
    (hr : resolveFields n ((operandOrder m).zip ops) (formatOf m).fields = .ok vs) :
    resolveTokens n t ops = .ok (m, vs) := by
  simp only [resolveTokens, hm, if_pos hl, hr]

/-- A field takes the operand under its own name, read by its kind, wherever that operand stands. -/
theorem resolveFields_cons_of_parses {n : Nat} {operands : List (FieldName × List Char)} {f : Field} {fs : List Field}
    {token : List Char} {v : Int} {vs : List Int} (hop : operands.lookup f.name = some token)
    (hv : parseOperand f.kind token = some v) (hfs : resolveFields n operands fs = .ok vs) :
    resolveFields n operands (f :: fs) = .ok (v :: vs) := by
  rw [resolveFields, hop, Option.getD_some, hv, hfs]

theorem resolveFields_two {n : Nat} {operands : List (FieldName × List Char)} {f g : Field} {x y : List Char} {u v : Int}
    (hx : operands.lookup f.name = some x) (hu : parseOperand f.kind x = some u)
    (hy : operands.lookup g.name = some y) (hv : parseOperand g.kind y = some v) :
    resolveFields n operands [f, g] = .ok [u, v] :=
  resolveFields_cons_of_parses hx hu (resolveFields_cons_of_parses hy hv rfl)

theorem resolveFields_three {n : Nat} {operands : List (FieldName × List Char)} {f g k : Field} {x y z : List Char}
    {u v w : Int} (hx : operands.lookup f.name = some x) (hu : parseOperand f.kind x = some u)
    (hy : operands.lookup g.name = some y) (hv : parseOperand g.kind y = some v)
    (hz : operands.lookup k.name = some z) (hw : parseOperand k.kind z = some w) :
    resolveFields n operands [f, g, k] = .ok [u, v, w] :=
  resolveFields_cons_of_parses hx hu (resolveFields_two hy hv hz hw)

/-- Settles O50: the number that the statement names for each mnemonic is that of its format's fields. -/
theorem wrongArityIsRefused : Obligations.WrongArityIsRefused := by
  unfold Obligations.WrongArityIsRefused
  intro n t m ops hm hl
  refine resolveTokens_of_length_ne n hm ?_
  cases m <;> exact hl

/-- Settles O51: for each mnemonic, the operand that each field of its format is looked up as. -/
theorem assemblerOrdersOperands : Obligations.AssemblerOrdersOperands := by
  unfold Obligations.AssemblerOrdersOperands
  intro n t x y z u v w
  refine ⟨fun hm hu hv => ?lc, fun hm hu hv => ?stm, fun hm hu hv hw => ?ldm, fun hm hu hv hw => ?ge⟩
  case lc => exact resolveTokens_of_resolveFields hm rfl (resolveFields_two rfl hu rfl hv)
  case stm => exact resolveTokens_of_resolveFields hm rfl (resolveFields_two rfl hu rfl hv)
  case ldm => exact resolveTokens_of_resolveFields hm rfl (resolveFields_three rfl hw rfl hu rfl hv)
  case ge => exact resolveTokens_of_resolveFields hm rfl (resolveFields_three rfl hv rfl hw rfl hu)

/-! ### What a line's assembly depends on -/

theorem assembleLine_of_blank {text : List Char} (n : Nat) (h : isBlankLine text = true) :
    assembleLine n text = .ok [] := by
  simp [assembleLine, h]

/-- Of a line's characters, whether it is blank and its tokens count. -/
theorem assembleLine_congr {a b : List Char} (n : Nat) (hblank : isBlankLine a = isBlankLine b)
    (htokens : lineTokens a = lineTokens b) : assembleLine n a = assembleLine n b := by
  simp only [assembleLine, resolveLine, hblank, htokens]

theorem assembleLine_congr_of_stripComment {a b : List Char} (n : Nat) (h : stripComment a = stripComment b) :
    assembleLine n a = assembleLine n b :=
  assembleLine_congr n (by simp only [isBlankLine, h]) (by simp only [lineTokens, h])

/-! ### Comments -/

theorem stripComment_of_no_mark {text : List Char} (h : ∀ c ∈ text, c ≠ ';' ∧ c ≠ '#') (rest : List Char) :
    stripComment (text ++ rest) = text ++ stripComment rest :=
  List.takeWhile_append_of_pos fun c hc => by simpa using h c hc

theorem stripComment_mark {c : Char} (h : c = ';' ∨ c = '#') (comment : List Char) :
    stripComment (c :: comment) = [] := by
  rcases h with rfl | rfl <;> rfl

/-- The first mark and what follows it do not count. -/
theorem assembleLine_append_comment {text : List Char} (htext : ∀ c ∈ text, c ≠ ';' ∧ c ≠ '#') {mark : Char}
    (hmark : mark = ';' ∨ mark = '#') (n : Nat) (comment : List Char) :
    assembleLine n (text ++ mark :: comment) = assembleLine n text := by
  refine assembleLine_congr_of_stripComment n ?_
  calc stripComment (text ++ mark :: comment)
      = text ++ [] := by rw [stripComment_of_no_mark htext, stripComment_mark hmark]
    _ = text ++ stripComment [] := rfl
    _ = stripComment text := by rw [← stripComment_of_no_mark htext, List.append_nil]

/-- What stands after a text is kept whole up to its own comment, or is a part of the text's comment. -/
theorem stripComment_append (text after : List Char) :
    stripComment (text ++ after) = stripComment text ++ stripComment after ∨
      stripComment (text ++ after) = stripComment text := by
  unfold stripComment
  rw [List.takeWhile_append]
  split
  · next h => exact .inl (by rw [(List.takeWhile_sublist _).eq_of_length h])
  · exact .inr rfl

/-! ### White space around a line -/

theorem isWhiteSpace_of_space_or_tab {c : Char} (h : c = ' ' ∨ c = '\t') : isWhiteSpace c = true :=
  (isWhiteSpace_iff c).2 (h.imp_right .inl)

theorem ne_mark_of_isWhiteSpace {c : Char} (h : isWhiteSpace c = true) : c ≠ ';' ∧ c ≠ '#' := by
  rcases (isWhiteSpace_iff c).1 h with rfl | rfl | rfl <;> decide

theorem mem_of_mem_stripComment {c : Char} {text : List Char} (h : c ∈ stripComment text) : c ∈ text :=
  (List.takeWhile_sublist _).subset h

theorem isBlankLine_of_isWhiteSpace {text : List Char} (h : ∀ c ∈ text, isWhiteSpace c = true) :
    isBlankLine text = true :=
  (isBlankLine_iff text).2 fun c hc => h c (mem_of_mem_stripComment hc)

/-- Separators before the first token hold no token. -/
theorem tokensFrom_separators_append {sep : List Char} (h : ∀ c ∈ sep, isSeparator c = true) (cs : List Char) :
    tokensFrom [] (sep ++ cs) = tokensFrom [] cs := by
  induction sep with
  | nil => rfl
  | cons c sep ih =>
    rw [List.cons_append, tokensFrom, if_pos (h c List.mem_cons_self)]
    exact ih fun d hd => h d (List.mem_cons_of_mem c hd)

/-- Separators at the end of a text only end the token being read, as the end of the text does. -/
theorem tokensFrom_append_separators {sep : List Char} (h : ∀ c ∈ sep, isSeparator c = true)
    (current cs : List Char) : tokensFrom current (cs ++ sep) = tokensFrom current cs := by
  induction cs generalizing current with
  | nil =>
    cases sep with
    | nil => rfl
    | cons c sep =>
      have hrest : tokensFrom [] sep = [] := tokensFrom_separators fun d hd => h d (List.mem_cons_of_mem c hd)
      simp only [List.nil_append, tokensFrom, if_pos (h c List.mem_cons_self), hrest]
  | cons c cs ih => simp only [List.cons_append, tokensFrom, ih]

/-- White space before a line does not count. -/
theorem assembleLine_whiteSpace_append {before : List Char} (h : ∀ c ∈ before, isWhiteSpace c = true) (n : Nat)
    (text : List Char) : assembleLine n (before ++ text) = assembleLine n text := by
  have hstrip : stripComment (before ++ text) = before ++ stripComment text :=
    stripComment_of_no_mark (fun c hc => ne_mark_of_isWhiteSpace (h c hc)) text
  refine assembleLine_congr n ?_ ?_
  · rw [isBlankLine, hstrip, List.all_append, List.all_eq_true.2 h, Bool.true_and, isBlankLine]
  · rw [lineTokens, hstrip]
    exact tokensFrom_separators_append (fun c hc => isSeparator_of_isWhiteSpace (h c hc)) _

/-- White space after a line does not count. -/
theorem assembleLine_append_whiteSpace {after : List Char} (h : ∀ c ∈ after, isWhiteSpace c = true) (n : Nat)
    (text : List Char) : assembleLine n (text ++ after) = assembleLine n text := by
  rcases stripComment_append text after with hstrip | hstrip
  · have hafter : ∀ c ∈ stripComment after, isWhiteSpace c = true := fun c hc => h c (mem_of_mem_stripComment hc)
    refine assembleLine_congr n ?_ ?_
    · rw [isBlankLine, hstrip, List.all_append, List.all_eq_true.2 hafter, Bool.and_true, isBlankLine]
    · rw [lineTokens, hstrip]
      exact tokensFrom_append_separators (fun c hc => isSeparator_of_isWhiteSpace (hafter c hc)) [] _
  · exact assembleLine_congr_of_stripComment n hstrip

/-- Settles O52: the comment, the white space on either side, and the blank line. -/
theorem commentsAndBlankLines : Obligations.CommentsAndBlankLines := by
  unfold Obligations.CommentsAndBlankLines
  refine ⟨fun n text comment h => ?comment, fun n before text after h => ?around, fun n text h => ?blank⟩
  case comment =>
    exact ⟨assembleLine_append_comment h (.inl rfl) n comment, assembleLine_append_comment h (.inr rfl) n comment⟩
  case around =>
    have hspace : ∀ c ∈ before ++ after, isWhiteSpace c = true := fun c hc => isWhiteSpace_of_space_or_tab (h c hc)
    rw [assembleLine_append_whiteSpace fun c hc => hspace c (List.mem_append_right before hc),
      assembleLine_whiteSpace_append fun c hc => hspace c (List.mem_append_left after hc)]
  case blank =>
    exact assembleLine_of_blank n (isBlankLine_of_isWhiteSpace fun c hc => isWhiteSpace_of_space_or_tab (h c hc))

/-! ### A line that resolves ends in the Encoder -/

theorem isBlankLine_of_lineTokens_cons {text t : List Char} {ops : List (List Char)} (h : lineTokens text = t :: ops) :
    isBlankLine text = false := by
  rw [← Bool.not_eq_true]
  intro hblank
  rw [lineTokens_of_blank hblank] at h
  cases h

theorem resolveLine_of_lineTokens_cons {text t : List Char} {ops : List (List Char)} (n : Nat)
    (h : lineTokens text = t :: ops) : resolveLine n text = resolveTokens n t ops := by
  rw [resolveLine, h]

/-- A line whose tokens resolve answers what the Encoder does, with the line number added to an error. -/
theorem assembleLine_of_resolves {n : Nat} {text t : List Char} {ops : List (List Char)} {m : Mnemonic} {vs : List Int}
    (ht : lineTokens text = t :: ops) (hr : resolveTokens n t ops = .ok (m, vs)) :
    assembleLine n text = (encodeFields m vs).mapError (lineError n) := by
  have hline : resolveLine n text = .ok (m, vs) := (resolveLine_of_lineTokens_cons n ht).trans hr
  rcases assembleLine_cases n text with ⟨hblank, -⟩ | ⟨-, ⟨e, he, -⟩ | ⟨m', vs', hok, hencode⟩⟩
  · rw [isBlankLine_of_lineTokens_cons ht] at hblank
    cases hblank
  · rw [hline] at he
    cases he
  · rw [hline] at hok
    cases hok
    rcases hencode with ⟨bs, hbs, hline⟩ | ⟨e, he, hline⟩
    · rw [hline, hbs, Except.mapError]
    · rw [hline, he, Except.mapError]

/-- The Encoder's two answers for one value per field: bytes where every value packs, and else the overflow of a field whose
value does not. -/
theorem encodeFields_cases {m : Mnemonic} {vs : List Int} (hl : vs.length = (formatOf m).fields.length) :
    ((∃ bs, encodeFields m vs = .ok bs) ∧
      ∀ (j : Nat) (f : Field) (v : Int), (formatOf m).fields[j]? = some f → vs[j]? = some v →
        ∃ p, pack v f.width = .ok p) ∨
    ∃ (j : Nat) (f : Field) (v : Int), (formatOf m).fields[j]? = some f ∧ vs[j]? = some v ∧
      pack v f.width = .error ⟨v, f.width⟩ ∧ encodeFields m vs = .error (.fieldOverflow f.name v f.width) := by
  rcases packFields_cases (formatOf m).fields vs (formatOf m).opcode hl with
    ⟨⟨w, hw⟩, hall⟩ | ⟨j, f, v, hf, hv, hp, he⟩
  · exact .inl ⟨⟨serialize w (formatOf m).size, by rw [encodeFields, encodeWord, hw]⟩, hall⟩
  · exact .inr ⟨j, f, v, hf, hv, hp, by rw [encodeFields, encodeWord, he]⟩

theorem encodeFields_ok_iff {m : Mnemonic} {vs : List Int} (hl : vs.length = (formatOf m).fields.length) :
    (∃ bs, encodeFields m vs = .ok bs) ↔
      ∀ (j : Nat) (f : Field) (v : Int), (formatOf m).fields[j]? = some f → vs[j]? = some v →
        ∃ p, pack v f.width = .ok p := by
  rcases encodeFields_cases hl with ⟨hok, hall⟩ | ⟨j, f, v, hf, hv, hp, he⟩
  · exact iff_of_true hok hall
  · refine iff_of_false (fun ⟨bs, hbs⟩ => ?_) fun hall => ?_
    · rw [he] at hbs
      cases hbs
    · obtain ⟨p, hp'⟩ := hall j f v hf hv
      rw [hp] at hp'
      cases hp'

theorem encodeFields_error {m : Mnemonic} {vs : List Int} {e : EncodeError}
    (hl : vs.length = (formatOf m).fields.length) (h : encodeFields m vs = .error e) :
    ∃ (j : Nat) (f : Field) (v : Int), (formatOf m).fields[j]? = some f ∧ vs[j]? = some v ∧
      pack v f.width = .error ⟨v, f.width⟩ ∧ e = .fieldOverflow f.name v f.width := by
  rcases encodeFields_cases hl with ⟨⟨bs, hbs⟩, -⟩ | ⟨j, f, v, hf, hv, hp, he⟩
  · rw [h] at hbs
    cases hbs
  · rw [h] at he
    cases he
    exact ⟨j, f, v, hf, hv, hp, rfl⟩

theorem mapError_eq_ok_iff {ε ε' α : Type} (g : ε → ε') (x : Except ε α) (a : α) :
    x.mapError g = .ok a ↔ x = .ok a := by
  cases x <;> simp [Except.mapError]

theorem mapError_eq_error_iff {ε ε' α : Type} (g : ε → ε') (x : Except ε α) (e' : ε') :
    x.mapError g = .error e' ↔ ∃ e, x = .error e ∧ g e = e' := by
  cases x <;> simp [Except.mapError]

/-- `pack` does not know the kind of a field: register -1 is packed as register 127 is (R85). -/
theorem assembleLine_lc_register_minus_one (n : Nat) :
    assembleLine n ['L', 'C', ' ', 'r', '-', '1', ',', ' ', '0'] = .ok [0xF0, 0x07, 0x00, 0x00] := by
  have htokens : lineTokens ['L', 'C', ' ', 'r', '-', '1', ',', ' ', '0'] = [['L', 'C'], ['r', '-', '1'], ['0']] := by
    decide +kernel
  obtain ⟨hlc, -⟩ := assemblerOrdersOperands n ['L', 'C'] ['r', '-', '1'] ['0'] [] (-1) 0 0
  exact assembleLine_of_resolves htokens (hlc (by decide +kernel) (by decide +kernel) (by decide +kernel))

/-- Nor is a negative address refused: -1 is packed as 1023 is (R85). -/
theorem assembleLine_stm_address_minus_one (n : Nat) :
    assembleLine n ['S', 'T', 'M', ' ', '-', '1', ',', ' ', 'r', '0'] = .ok [0xF9, 0x3F, 0x00] := by
  have htokens : lineTokens ['S', 'T', 'M', ' ', '-', '1', ',', ' ', 'r', '0'] =
      [['S', 'T', 'M'], ['-', '1'], ['r', '0']] := by
    decide +kernel
  obtain ⟨-, hstm, -⟩ := assemblerOrdersOperands n ['S', 'T', 'M'] ['-', '1'] ['r', '0'] [] (-1) 0 0
  exact assembleLine_of_resolves htokens (hstm (by decide +kernel) (by decide +kernel) (by decide +kernel))

/-- Settles O54: the line's answer is the Encoder's, and the Encoder's loop packs value by value. -/
theorem lineAssemblesToItsEncoding : Obligations.LineAssemblesToItsEncoding := by
  unfold Obligations.LineAssemblesToItsEncoding
  refine ⟨fun n text t ops m vs ht hr => ?_, ⟨_, rfl, assembleLine_lc_register_minus_one⟩,
    ⟨_, rfl, assembleLine_stm_address_minus_one⟩⟩
  have hl : vs.length = (formatOf m).fields.length := resolveTokens_length hr
  simp only [assembleLine_of_resolves ht hr, mapError_eq_ok_iff, mapError_eq_error_iff]
  refine ⟨fun _ hbs => hbs, fun name v w he => ⟨_, he, lineError_fieldOverflow n name v w⟩, encodeFields_ok_iff hl, ?_⟩
  rintro e ⟨e', he', rfl⟩
  obtain ⟨j, f, v, hf, hv, hp, rfl⟩ := encodeFields_error hl he'
  exact ⟨j, f, v, hf, hv, hp, lineError_fieldOverflow n f.name v f.width⟩

end Sys2Proof.Machine

/-! PROOFS. The codec's functions one by one (`40_codec.md` R93, R102, R104, R107, R108): sign extension, the slices a word
is decoded from, the byte order both ways, and images. -/

namespace Sys2Proof

/-! ### unpack_signed -/

theorem unpackSigned_of_le {raw n : Nat} (h : 2 ^ (n - 1) ≤ raw) : unpackSigned raw n = (raw : Int) - 2 ^ n :=
  if_pos h

theorem unpackSigned_of_lt {raw n : Nat} (h : raw < 2 ^ (n - 1)) : unpackSigned raw n = raw :=
  if_neg (Nat.not_le.2 h)

/-- The branch of `unpack_signed` is taken where the sign bit is set. -/
theorem unpackSigned_toNat {n : Nat} (hn : 1 ≤ n) (y : BitVec n) : unpackSigned y.toNat n = y.toInt := by
  have hdouble : 2 ^ n = 2 * 2 ^ (n - 1) := (mul_pow_sub_one (by omega) 2).symm
  rcases Nat.lt_or_ge y.toNat (2 ^ (n - 1)) with hlow | hhigh
  · rw [unpackSigned_of_lt hlow, BitVec.toInt_eq_toNat_of_lt (by omega)]
  · rw [unpackSigned_of_le hhigh, BitVec.toInt_eq_toNat_cond, if_neg (by omega)]
    norm_cast

/-- Settles O11: `unpack_signed` is `BitVec.toInt`, whose range is known. -/
theorem unpackSignedIsSignExtension : Obligations.UnpackSignedIsSignExtension := by
  unfold Obligations.UnpackSignedIsSignExtension
  refine ⟨fun raw n hn hraw => ?_, rfl⟩
  have htoInt : unpackSigned raw n = (BitVec.ofNat n raw).toInt := by
    rw [← unpackSigned_toNat hn, BitVec.toNat_ofNat, Nat.mod_eq_of_lt hraw]
  refine ⟨htoInt, unpackSigned_of_le, unpackSigned_of_lt, ?_, ?_⟩ <;> rw [htoInt]
  · exact BitVec.le_toInt _
  · exact Int.le_sub_one_of_lt BitVec.toInt_lt

/-! ### decode_word -/

/-- `extract` of a word's value is the value of its slice. -/
theorem extract_toNat {n : Nat} (x : BitVec n) (o k : Nat) : extract x.toNat o k = (x.extractLsb' o k).toNat := by
  rw [BitVec.extractLsb'_toNat, Nat.shiftRight_eq_div_pow, extract]

theorem unpackSigned_extract {n k : Nat} (hk : 1 ≤ k) (x : BitVec n) (o : Nat) :
    unpackSigned (extract x.toNat o k) k = (x.extractLsb' o k).toInt := by
  rw [extract_toNat, unpackSigned_toNat hk]

/-- A register's slice, seven bits wide, is its index as it stands. -/
theorem ofNat_extract {n : Nat} (x : BitVec n) (o : Nat) :
    Fin.ofNat 128 (extract x.toNat o 7) = (x.extractLsb' o 7).toFin := by
  rw [extract_toNat]
  exact Fin.ext (Nat.mod_eq_of_lt (x.extractLsb' o 7).isLt)

theorem toNat_mod_of_extractLsb {n : Nat} {x : BitVec n} {a : BitVec 4} (h : x.extractLsb 3 0 = a) :
    x.toNat % 16 = a.toNat := by
  have hnibble : extract x.toNat 0 4 = a.toNat := (extract_toNat x 0 4).trans (congrArg BitVec.toNat h)
  rwa [extract, Nat.pow_zero, Nat.div_one] at hnibble

theorem decodeFormat_lc_slices {n : Nat} (x : BitVec n) :
    decodeFormat lcFormat x.toNat = .lc (x.extractLsb' 4 7).toFin (x.extractLsb' 11 20).toInt := by
  rw [decodeFormat_lc, ofNat_extract, unpackSigned_extract (by decide)]

theorem decodeFormat_stm_slices {n : Nat} (x : BitVec n) :
    decodeFormat stmFormat x.toNat = .stm (x.extractLsb' 4 10).toNat (x.extractLsb' 14 7).toFin := by
  rw [decodeFormat_stm, extract_toNat, ofNat_extract]

theorem decodeFormat_ldm_slices {n : Nat} (x : BitVec n) :
    decodeFormat ldmFormat x.toNat =
      .ldm (x.extractLsb' 4 15).toInt (x.extractLsb' 19 7).toFin (x.extractLsb' 26 7).toFin := by
  rw [decodeFormat_ldm, unpackSigned_extract (by decide), ofNat_extract, ofNat_extract]

theorem decodeFormat_ge_slices {n : Nat} (x : BitVec n) :
    decodeFormat geFormat x.toNat =
      .ge (x.extractLsb' 4 7).toFin (x.extractLsb' 11 10).toNat (x.extractLsb' 21 7).toFin := by
  rw [decodeFormat_ge, ofNat_extract, extract_toNat x 11, ofNat_extract]

/-- The nibble selects the format that the rest of the word is read by. -/
theorem decodeWord_of_nibble {n : Nat} {x : BitVec n} {a : BitVec 4} {f : Format} (h : x.extractLsb 3 0 = a)
    (hf : formatByOpcode a.toNat = some f) : decodeWord x.toNat = some (decodeFormat f x.toNat) :=
  (decodeWord_eq_some_iff _ _).2 ⟨f, by rw [toNat_mod_of_extractLsb h, hf], rfl⟩

/-- Settles O12: per nibble, the format's own fields as slices. -/
theorem decodeWordReadsTheSlices : Obligations.DecodeWordReadsTheSlices := by
  unfold Obligations.DecodeWordReadsTheSlices
  refine fun x => ⟨fun h => ?lc, fun h => ?stm, fun h => ?ldm, fun h => ?ge, rfl⟩
  case lc => exact (decodeWord_of_nibble h rfl).trans (congrArg some (decodeFormat_lc_slices x))
  case stm => exact (decodeWord_of_nibble h rfl).trans (congrArg some (decodeFormat_stm_slices x))
  case ldm => exact (decodeWord_of_nibble h rfl).trans (congrArg some (decodeFormat_ldm_slices x))
  case ge => exact (decodeWord_of_nibble h rfl).trans (congrArg some (decodeFormat_ge_slices x))

/-! ### The byte order -/

/-- Byte `i` of a serialised word is its bits from `8 * i` up, whether or not the word fits. -/
theorem serialize_getElem? (w : Nat) {i k : Nat} (h : i < k) :
    (serialize w k)[i]? = some (BitVec.ofNat 8 (w >>> (8 * i))) := by
  induction k generalizing w i with
  | zero => omega
  | succ k ih =>
    rw [serialize_succ]
    cases i with
    | zero => rfl
    | succ i =>
      rw [List.getElem?_cons_succ, ih (w / 2 ^ 8) (by omega), ← Nat.shiftRight_eq_div_pow, ← Nat.shiftRight_add,
        Nat.mul_succ, Nat.add_comm]

theorem ofNat_and_0xFF (w : Nat) : BitVec.ofNat 8 (w &&& 0xFF) = BitVec.ofNat 8 w := by
  apply BitVec.eq_of_toNat_eq
  rw [BitVec.toNat_ofNat, BitVec.toNat_ofNat, Nat.and_two_pow_sub_one_eq_mod w 8, Nat.mod_mod]

/-- The Encoder's loop stays within any width that holds its fields and the word it starts from. -/
theorem packFields_lt {n : Nat} {fs : List Field} {vs : List Int} {w u : Nat}
    (hfs : ∀ f ∈ fs, f.offset + f.width ≤ n) (hw : w < 2 ^ n) (h : packFields fs vs w = .ok u) : u < 2 ^ n := by
  induction fs generalizing vs w with
  | nil => cases vs <;> cases h; exact hw
  | cons f fs ih =>
    cases vs with
    | nil => cases h
    | cons v vs =>
      obtain ⟨p, hp, hrest⟩ := packFields_ok_cons h
      have hslot : p <<< f.offset < 2 ^ n := by
        calc p <<< f.offset < 2 ^ (f.width + f.offset) := Nat.shiftLeft_lt (pack_lt hp)
          _ ≤ 2 ^ n := Nat.pow_le_pow_right two_pos (by have := hfs f List.mem_cons_self; omega)
      exact ih (fun g hg => hfs g (List.mem_cons_of_mem f hg)) (Nat.or_lt_two_pow hw hslot) hrest

theorem encodeWord_lt {m : Mnemonic} {vals : List Int} {w : Nat} (h : encodeWord m vals = .ok w) :
    w < 2 ^ (8 * ilen m) := by
  have hfields : ∀ f ∈ (formatOf m).fields, f.offset + f.width ≤ 8 * ilen m := by cases m <;> decide
  have hopcode : (formatOf m).opcode < 2 ^ (8 * ilen m) := by cases m <;> decide
  exact packFields_lt hfields hopcode h

/-- Settles O16: the bytes by induction on their number, the fit of the Encoder's word from its loop. -/
theorem serializedBytes : Obligations.SerializedBytes := by
  unfold Obligations.SerializedBytes
  refine ⟨fun w k _ => ⟨serialize_length w k, fun i hi => ?_⟩, fun _ _ _ => encodeWord_lt, rfl⟩
  rw [ofNat_and_0xFF, serialize_getElem? w hi]

/-- A sum by weight: its first term, and the weight of a byte times the sum of the others. -/
theorem sum_bytes_succ {R : Type} [CommSemiring R] (g : Nat → R) (k : Nat) :
    ∑ i ∈ Finset.range (k + 1), g i * 2 ^ (8 * i) = g 0 + 2 ^ 8 * ∑ i ∈ Finset.range k, g (i + 1) * 2 ^ (8 * i) := by
  rw [Finset.sum_range_succ', Finset.mul_sum, add_comm]
  congr 1
  · ring
  · exact Finset.sum_congr rfl fun i _ => by ring

theorem deserialize_eq_sum (bs : List Byte) :
    deserialize bs = ∑ i ∈ Finset.range bs.length, (bs.getD i 0).toNat * 2 ^ (8 * i) := by
  induction bs with
  | nil => rfl
  | cons b bs ih =>
    rw [deserialize, ih, List.length_cons, sum_bytes_succ fun i => ((b :: bs).getD i 0).toNat]
    rfl

theorem deserialize_serialize {w k : Nat} (h : w < 2 ^ (8 * k)) : deserialize (serialize w k) = w := by
  induction k generalizing w with
  | zero => rw [Nat.mul_zero, Nat.pow_zero, Nat.lt_one_iff] at h; rw [h]; rfl
  | succ k ih =>
    have hrest : w / 2 ^ 8 < 2 ^ (8 * k) := Nat.div_lt_of_lt_mul (by rwa [← Nat.pow_add, Nat.add_comm])
    rw [serialize_succ, deserialize, ih hrest, BitVec.toNat_ofNat, Nat.mod_add_div]

end Sys2Proof

namespace Sys2Proof.Machine

theorem fetchBytes_ok_iff {s : State} {addr k w : Nat} :
    fetchBytes s addr k = .ok w ↔ addr + k ≤ s.memSize ∧ fetchCells s addr k = .ok w := by
  unfold fetchBytes
  split
  · next h => simp [Nat.not_le.2 h]
  · next h => simp [Nat.not_lt.1 h]

/-- A round of the fetch loop that succeeds: the first cell is a byte, and the word the lowest of its bytes and the others. -/
theorem fetchCells_succ_ok {s : State} {addr k w : Nat} (h : fetchCells s addr (k + 1) = .ok w) :
    ∃ u, fetchCells s (addr + 1) k = .ok u ∧ (w : Int) = (s.cell addr).toInt + 2 ^ 8 * u := by
  have hbyte : 0 ≤ (s.cell addr).toInt := (fetchCells_ok h 0 (Nat.succ_pos k)).1
  unfold fetchCells at h
  simp only at h
  split at h
  · cases h
  · split at h
    · cases h
    · next u hu =>
      cases h
      exact ⟨u, hu, by push_cast; rw [Int.toNat_of_nonneg hbyte]⟩

theorem fetchCells_eq_sum {s : State} {addr k w : Nat} (h : fetchCells s addr k = .ok w) :
    (w : Int) = ∑ i ∈ Finset.range k, (s.cell (addr + i)).toInt * 2 ^ (8 * i) := by
  induction k generalizing addr w with
  | zero => cases h; rfl
  | succ k ih =>
    obtain ⟨u, hu, hw⟩ := fetchCells_succ_ok h
    rw [hw, ih hu, sum_bytes_succ fun i => (s.cell (addr + i)).toInt]
    simp only [Nat.add_zero, Nat.add_assoc, Nat.add_comm 1]

/-- Settles O17: `deserialize` and the fetch loop each by induction, with the same split of the sum. -/
theorem deserializeSumsTheBytes : Obligations.DeserializeSumsTheBytes := by
  unfold Obligations.DeserializeSumsTheBytes
  refine ⟨deserialize_eq_sum, fun _ _ => deserialize_serialize, fun s addr k w h => ?_⟩
  obtain ⟨-, hcells⟩ := fetchBytes_ok_iff.1 h
  exact fetchCells_eq_sum hcells

end Sys2Proof.Machine

namespace Sys2Proof

/-! ### Images -/

theorem encodeImage_cons_ok_iff {m : Mnemonic} {vals : List Int} {rest : List (Mnemonic × List Int)} {image : List Byte} :
    encodeImage ((m, vals) :: rest) = .ok image ↔
      ∃ bs tail, encodeFields m vals = .ok bs ∧ encodeImage rest = .ok tail ∧ image = bs ++ tail := by
  rw [encodeImage]
  cases encodeFields m vals with
  | error e => simp
  | ok bs => cases encodeImage rest <;> simp [eq_comm]

theorem encodeImage_singleton (m : Mnemonic) (vals : List Int) : encodeImage [(m, vals)] = encodeFields m vals := by
  rw [encodeImage]
  cases encodeFields m vals with
  | error e => rfl
  | ok bs => exact congrArg Except.ok (List.append_nil bs)

theorem encodeImage_append {xs ys : List (Mnemonic × List Int)} {a b : List Byte} (hx : encodeImage xs = .ok a)
    (hy : encodeImage ys = .ok b) : encodeImage (xs ++ ys) = .ok (a ++ b) := by
  induction xs generalizing a with
  | nil => cases hx; exact hy
  | cons x xs ih =>
    obtain ⟨bs, tail, hbs, htail, rfl⟩ := encodeImage_cons_ok_iff.1 hx
    exact encodeImage_cons_ok_iff.2 ⟨bs, tail ++ b, hbs, ih htail, List.append_assoc bs tail b⟩

/-- Every instruction of a sequence that has an image encodes. -/
theorem encodeFields_ok_of_mem {xs : List (Mnemonic × List Int)} {image : List Byte} (h : encodeImage xs = .ok image)
    {m : Mnemonic} {vals : List Int} (hmem : (m, vals) ∈ xs) : ∃ bs, encodeFields m vals = .ok bs := by
  induction xs generalizing image with
  | nil => cases hmem
  | cons x xs ih =>
    obtain ⟨bs, tail, hbs, htail, -⟩ := encodeImage_cons_ok_iff.1 h
    cases hmem with
    | head => exact ⟨bs, hbs⟩
    | tail _ hmem => exact ih htail hmem

/-- Settles O19: an image is made head first, so each clause is an induction on the sequence. -/
theorem imageConcatenatesEncodings : Obligations.ImageConcatenatesEncodings := by
  unfold Obligations.ImageConcatenatesEncodings
  refine ⟨rfl, encodeImage_singleton, fun _ _ _ _ => encodeImage_append, fun xs m vals e hmem he image himage => ?_⟩
  obtain ⟨bs, hbs⟩ := encodeFields_ok_of_mem himage hmem
  rw [he] at hbs
  cases hbs

end Sys2Proof

/-! PROOFS. Fetch and dispatch (`41_fetch_dispatch.md` R128, R131): the pc advances by the length that the table gave at
dispatch, and fetch reads no more than five cells. -/

namespace Sys2Proof.Machine

/-! ### The advance -/

/-- The format of a fetched instruction is the entry of the nibble at the pc. -/
theorem formatByOpcode_of_fetchInstr {s : State} {i : Instr} (h : fetchInstr s = .ok i) :
    formatByOpcode (opcodeNibble s) = some (formatOf i.mnemonic) := by
  obtain ⟨f, w, hf, -, -, rfl⟩ := fetchInstr_ok h
  exact formatByOpcode_eq_formatOf_decoded hf w

/-- An instruction that raises no fault moves the pc by its own length, whatever it wrote. -/
theorem exec_pc_of_no_fault {i : Instr} {s t : State} (h : exec i s = .next t) (hfault : t.fault = none) :
    t.pc = s.pc + ilen i.mnemonic := by
  rcases exec_cases i s with ⟨a, -, e⟩ | ⟨d, v, -, -, e⟩ | ⟨b, c, rfl, -, e⟩ <;> rw [e] at h <;> cases h
  · rw [takeFault_fault] at hfault
    cases hfault
  · rw [advance_pc, State.setReg_pc]
  · rw [advance_pc, State.setCell_pc, Instr.mnemonic]

/-- A running Core whose step raises no fault has fetched an instruction and executed it. -/
theorem exec_of_step_no_fault {s t : State} (hrun : s.running = true) (h : step s = .next t)
    (hfault : t.fault = none) : ∃ i, fetchInstr s = .ok i ∧ exec i s = .next t := by
  obtain ⟨hclear, hpc⟩ := s.running_iff.1 hrun
  rcases step_cases s with ⟨f, hlatch, -⟩ | ⟨-, hend, -⟩ | ⟨-, f, -, e⟩ | ⟨-, i, hi, e⟩
  · rw [hclear] at hlatch
    cases hlatch
  · exact absurd hpc (Nat.not_lt.2 hend)
  · rw [e] at h
    cases h
    rw [takeFault_fault] at hfault
    cases hfault
  · exact ⟨i, hi, e.symm.trans h⟩

/-- Settles O30: the fetched instruction is decoded by the nibble's entry, and its execution advances by that length. -/
theorem pcAdvancesByTheDispatchedLength : Obligations.PcAdvancesByTheDispatchedLength := by
  unfold Obligations.PcAdvancesByTheDispatchedLength
  refine ⟨fun s t hrun hstep hfault => ?_, ilen_lc, ilen_stm, ilen_ldm, ilen_ge⟩
  obtain ⟨i, hi, hexec⟩ := exec_of_step_no_fault hrun hstep hfault
  exact ⟨i, hi, formatByOpcode_of_fetchInstr hi, exec_pc_of_no_fault hexec hfault⟩

/-! ### What fetch reads -/

/-- Every entry of the table is at most five bytes long, so fetch reads at most five cells. -/
theorem size_le_of_formatByOpcode {a : Nat} {f : Format} (h : formatByOpcode a = some f) : f.size ≤ 5 := by
  obtain ⟨hf, -⟩ := formatOf_of_formatByOpcode h
  obtain ⟨-, hle⟩ := ilen_pos f.mnemonic
  rwa [ilen, hf] at hle

/-- Settles O32: the first cell gives the nibble and so the format, and the format's bytes are among the five cells. -/
theorem fetchReadsMemoryAnew : Obligations.FetchReadsMemoryAnew := by
  unfold Obligations.FetchReadsMemoryAnew
  intro s t hpc hsize hcells
  have hnibble : opcodeNibble t = opcodeNibble s := opcodeNibble_congr (by rw [hpc]; exact hcells 0 (by decide))
  cases hf : formatByOpcode (opcodeNibble s) with
  | none => simp only [fetchInstr, hnibble, hf, hpc]
  | some f =>
    have hbytes : fetchBytes t s.pc f.size = fetchBytes s s.pc f.size :=
      fetchBytes_congr hsize fun j hj => hcells j (hj.trans_le (size_le_of_formatByOpcode hf))
    simp only [fetchInstr, hnibble, hf, hpc, hbytes]

end Sys2Proof.Machine

/-! PROOFS. The four instructions (`42_instructions.md`): what each answers, stated once as an equation over the shared
operations, and the whole effect of the one write it ends in. -/

namespace Sys2Proof

/-! ### Which words decode to an LC -/

/-- What `unpack_signed` gives is canonical for a signed field of its width. -/
theorem signedFits_unpackSigned {raw n : Nat} (hn : 1 ≤ n) (hraw : raw < 2 ^ n) :
    signedFits n (unpackSigned raw n) = true := by
  obtain ⟨hextension, -⟩ := unpackSignedIsSignExtension
  obtain ⟨-, -, -, hlow, hhigh⟩ := hextension raw n hn hraw
  exact decide_eq_true ⟨hlow, hhigh⟩

/-- A word that decodes to an instruction was read by the format of that instruction's mnemonic. -/
theorem decodeFormat_formatOf_of_decodeWord {w : Nat} {i : Instr} (h : decodeWord w = some i) :
    (formatOf i.mnemonic).opcode = w % 16 ∧ decodeFormat (formatOf i.mnemonic) w = i := by
  obtain ⟨f, hf, rfl⟩ := (decodeWord_eq_some_iff w i).1 h
  obtain ⟨hformat, hopcode⟩ := formatOf_of_formatByOpcode hf
  rw [decodeFormat_mnemonic, hformat]
  exact ⟨hopcode, rfl⟩

/-- An LC that was decoded has opcode 0 and a constant of 20 signed bits. -/
theorem decodeWord_lc {w : Nat} {b : RegIdx} {c : Int} (h : decodeWord w = some (.lc b c)) :
    w % 16 = 0 ∧ signedFits 20 c = true := by
  obtain ⟨hopcode, hdecode⟩ := decodeFormat_formatOf_of_decodeWord h
  obtain ⟨-, rfl⟩ := Instr.lc.inj ((decodeFormat_lc w).symm.trans hdecode)
  exact ⟨hopcode.symm, signedFits_unpackSigned (by decide) (extract_lt w 11 20)⟩

namespace Machine

/-! ### What each instruction answers -/

theorem exec_lc (b : RegIdx) (c : Int) (s : State) :
    exec (.lc b c) s = .next (advance .lc (s.setReg b (constant c))) := execLc_eq b c s

theorem exec_stm_of_lt {b : Nat} {s : State} (c : RegIdx) (h : b < s.memSize) :
    exec (.stm b c) s = .next (advance .stm (s.setCell b (s.reg c))) := by
  rcases execStm_eq b c s with ⟨-, e⟩ | ⟨hout, -⟩
  · exact e
  · exact absurd h (Nat.not_lt.2 hout)

/-- LDM whose base and offset sum to a cell of the machine. -/
theorem exec_ldm_of_sum {a : Nat} {o : Int} {d : RegIdx} {s : State} (e : RegIdx) (hsum : s.regInt d + o = a)
    (h : a < s.memSize) : exec (.ldm o e d) s = .next (advance .ldm (s.setReg e (s.cell a))) := by
  rcases execLdm_eq o e d s with ⟨-, hload⟩ | ⟨hout, -⟩
  · rw [hsum, Int.toNat_natCast] at hload
    exact hload
  · rw [hsum] at hout
    omega

theorem exec_ge_of_lt {c : Nat} {s : State} (b d : RegIdx) (h : c < s.memSize) :
    exec (.ge b c d) s = .next (advance .ge (s.setReg d (geResult (s.reg b) (s.cell c)))) := by
  rcases execGe_eq b c d s with ⟨-, e⟩ | ⟨hout, -⟩
  · exact e
  · exact absurd h (Nat.not_lt.2 hout)

/-! ### The effect of the one write -/

@[simp] theorem State.reg_setReg_same (s : State) (d : RegIdx) (v : Word) : (s.setReg d v).reg d = v := by
  rw [State.reg_setReg, if_pos rfl]

theorem State.cell_setCell_same {s : State} (hm : s.mem.wf = true) (a : Nat) (v : Word) : (s.setCell a v).cell a = v := by
  rw [State.cell_setCell s hm, if_pos rfl]

/-- An instruction that ends in a register write leaves everything but that register and the pc as it was. -/
theorem advance_setReg_frame (m : Mnemonic) (d : RegIdx) (v : Word) (s : State) :
    sameRegsExcept d s (advance m (s.setReg d v)) ∧ sameCells s (advance m (s.setReg d v)) ∧
      (advance m (s.setReg d v)).pc = s.pc + ilen m ∧ sameControl s (advance m (s.setReg d v)) := by
  refine ⟨fun i hi => ?_, fun _ => rfl, rfl, rfl, rfl, rfl⟩
  rw [advance_reg, State.reg_setReg, if_neg hi]

/-! ### LC -/

/-- A constant of 20 signed bits is written exactly: a word has 32. -/
theorem toInt_constant {c : Int} (h : signedFits 20 c = true) : (constant c).toInt = c := by
  obtain ⟨hlow, hhigh⟩ := of_decide_eq_true h
  exact BitVec.toInt_ofInt_eq_self (by decide) (by omega) (by omega)

/-- Settles O20: the write's effect, the decoder's LC, and the closed facts about its bytes and spellings. -/
theorem lcLoadsItsConstant : Obligations.LcLoadsItsConstant := by
  unfold Obligations.LcLoadsItsConstant
  refine ⟨fun b c s hc => ⟨_, exec_lc b c s, ?_, advance_setReg_frame .lc b (constant c) s⟩,
    fun w b c => decodeWord_lc, rfl, rfl, rfl, rfl⟩
  rw [advance_reg, State.reg_setReg_same, toInt_constant hc]

/-! ### GE -/

theorem toInt_truthWord (b : Bool) : (truthWord b).toInt = if b then 1 else 0 := by
  cases b <;> rfl

theorem toInt_geResult (left right : Word) :
    (geResult left right).toInt = if left.toInt ≥ right.toInt then 1 else 0 := by
  rw [geResult, toInt_truthWord]
  simp only [decide_eq_true_eq, ge_iff_le]

/-- Settles O23: below `MEM_SIZE` GE writes its result, the signed comparison, and nothing else. -/
theorem geComparesSigned : Obligations.GeComparesSigned := by
  unfold Obligations.GeComparesSigned
  refine fun b c d s hc => ⟨_, exec_ge_of_lt b d hc, ?_, advance_setReg_frame .ge d _ s⟩
  rw [advance_reg, State.reg_setReg_same, toInt_geResult]

/-! ### STM, then LDM -/

/-- Settles O25: the store leaves the base register and the memory size, so the load's address is the cell that now holds
the register. -/
theorem storedValueLoadsBack : Obligations.StoredValueLoadsBack := by
  unfold Obligations.StoredValueLoadsBack
  intro s b c d e o hm hb hsum
  have hstored : (advance .stm (s.setCell b (s.reg c))).cell b = s.reg c := by
    rw [advance_cell, State.cell_setCell_same hm]
  refine ⟨_, _, exec_stm_of_lt c hb, exec_ldm_of_sum e hsum hb, hstored, ?_⟩
  rw [advance_reg, State.reg_setReg_same, hstored]

end Machine

end Sys2Proof

/-! PROOFS. The load that is part of reset (`70_reset_and_hazards.md` R192): byte `i` of the image ends up in cell `i`. -/

namespace Sys2Proof.Machine

/-- The cell of a byte holds the integer 0..255: its sign bit is never set. -/
theorem toInt_ofByte (b : Byte) : (Word.ofByte b).toInt = b.toNat := by
  rw [Word.ofByte, BitVec.toInt_setWidth, Int.bmod_eq_of_le] <;> omega

/-- A load writes rising addresses, so the cells before its first one stay. -/
theorem loadBytes_read_of_lt {bs : List Byte} {m : Memory} {addr a : Nat} (hm : m.wf = true) (ha : a < addr) :
    (loadBytes addr bs m).read a = m.read a := by
  induction bs generalizing m addr with
  | nil => rfl
  | cons b bs ih =>
    calc (loadBytes (addr + 1) bs (m.write addr (Word.ofByte b))).read a
        = (m.write addr (Word.ofByte b)).read a := ih (m.wf_write hm _ _) (Nat.lt_succ_of_lt ha)
      _ = m.read a := by rw [m.read_write hm, if_neg ha.ne]

/-- A loaded byte is written once, and no later byte of the load overwrites it. -/
theorem loadBytes_read_getElem {bs : List Byte} {m : Memory} {i : Nat} {b : Byte} (addr : Nat) (hm : m.wf = true)
    (hb : bs[i]? = some b) : (loadBytes addr bs m).read (addr + i) = Word.ofByte b := by
  induction bs generalizing m addr i with
  | nil => cases hb
  | cons c bs ih =>
    have hm' := m.wf_write hm addr (Word.ofByte c)
    cases i with
    | zero =>
      cases hb
      exact (loadBytes_read_of_lt hm' (Nat.lt_succ_self addr)).trans (by rw [m.read_write hm, if_pos rfl])
    | succ i =>
      rw [← Nat.add_assoc, Nat.add_right_comm]
      exact ih (addr + 1) hm' hb

/-- Settles O44: the launch of a fitting image is the load into the empty memory, which puts each byte in its cell. -/
theorem launchLoadsTheImage : Obligations.LaunchLoadsTheImage := by
  unfold Obligations.LaunchLoadsTheImage
  intro memSize image hfits
  refine ⟨_, (launch_eq_next_iff memSize image _).2 ⟨hfits, rfl⟩, rfl, fun i b hb => ?_⟩
  have hcell : (loadBytes 0 image []).read i = Word.ofByte b := by
    simpa using loadBytes_read_getElem (m := []) 0 rfl hb
  exact (congrArg BitVec.toInt hcell).trans (toInt_ofByte b)

end Sys2Proof.Machine

/-! PROOFS. The Bit-Field Codec (`40_codec.md` R90 to R98, R105, R106): which values pack, what unpacking makes of them, and
the canonical values, on which the two are inverse to each other. -/

namespace Sys2Proof

open Machine (accepted canonicalValue)

/-! ### pack and the accepted interval -/

theorem two_pow_eq_double {n : Nat} (hn : 1 ≤ n) : (2 : Int) ^ n = 2 * 2 ^ (n - 1) :=
  (mul_pow_sub_one (Nat.ne_of_gt hn) 2).symm

/-- A slot holds an accepted value as it is, or a turn of the slot higher where it is negative. -/
theorem emod_of_accepted {v : Int} {n : Nat} (hn : 1 ≤ n) (h : accepted n v) :
    v % 2 ^ n = if v < 0 then v + 2 ^ n else v := by
  obtain ⟨hlow, hhigh⟩ := h
  have hdouble := two_pow_eq_double hn
  split
  · rw [← Int.add_emod_right, Int.emod_eq_of_lt (by omega) (by omega)]
  · rw [Int.emod_eq_of_lt (by omega) (by omega)]

theorem pack_eq_ok_iff {v : Int} {n p : Nat} (hn : 1 ≤ n) :
    pack v n = .ok p ↔ accepted n v ∧ (p : Int) = v % 2 ^ n := by
  rcases pack_eq v n hn with ⟨hlow, hhigh, e⟩ | ⟨hout, e⟩ <;> rw [e]
  · have hslot : 0 ≤ v % 2 ^ n := Int.emod_nonneg v (by positivity)
    have haccepted : accepted n v := ⟨hlow, Int.le_sub_one_of_lt hhigh⟩
    rw [Except.ok.injEq, and_iff_right haccepted]
    omega
  · refine iff_of_false (fun h => by cases h) fun ⟨⟨hlow, hhigh⟩, _⟩ => ?_
    omega

/-- A slot has a packed value for a field exactly where the field's value is accepted. -/
theorem pack_ok_iff_accepted {v : Int} {n : Nat} (hn : 1 ≤ n) : (∃ p, pack v n = .ok p) ↔ accepted n v := by
  simp only [pack_eq_ok_iff hn, exists_and_left, and_iff_left_iff_imp]
  exact fun _ => ⟨(v % 2 ^ n).toNat, Int.toNat_of_nonneg (Int.emod_nonneg v (by positivity))⟩

/-! ### Unpacking a packed value -/

/-- The sign bit of the slot is set where the value is negative, and where it is above the signed range. -/
theorem unpackSigned_of_pack {v : Int} {n p : Nat} (hn : 1 ≤ n) (h : pack v n = .ok p) :
    unpackSigned p n = if 2 ^ (n - 1) ≤ v then v - 2 ^ n else v := by
  obtain ⟨haccepted, hp⟩ := (pack_eq_ok_iff hn).1 h
  rw [emod_of_accepted hn haccepted] at hp
  obtain ⟨hlow, hhigh⟩ := haccepted
  have hdouble := two_pow_eq_double hn
  have hcast : ((2 ^ (n - 1) : Nat) : Int) = 2 ^ (n - 1) := by norm_cast
  unfold unpackSigned
  split at hp
  · rw [if_pos (by omega), if_neg (by omega)]
    omega
  · split
    · rw [if_pos (by omega)]
      omega
    · rw [if_neg (by omega)]
      exact hp

theorem unpackUnsigned_of_pack {v : Int} {n p : Nat} (hn : 1 ≤ n) (h : pack v n = .ok p) :
    unpackUnsigned p n = if v < 0 then v + 2 ^ n else v := by
  obtain ⟨haccepted, hp⟩ := (pack_eq_ok_iff hn).1 h
  rw [unpackUnsigned_of_lt (pack_lt h), hp, emod_of_accepted hn haccepted]

/-- Settles O10: the slot is the value modulo `2 ^ n`, and each unpack reads it back in its own range. -/
theorem unpackAfterPack : Obligations.UnpackAfterPack := by
  unfold Obligations.UnpackAfterPack
  intro v n p hn h
  obtain ⟨haccepted, hp⟩ := (pack_eq_ok_iff hn).1 h
  refine ⟨haccepted, hp, ?_, ?_⟩
  · simpa only [not_le] using (unpackSigned_of_pack hn h).trans (ite_not (2 ^ (n - 1) ≤ v) v (v - 2 ^ n)).symm
  · simpa only [not_lt] using (unpackUnsigned_of_pack hn h).trans (ite_not (v < 0) v (v + 2 ^ n)).symm

/-! ### Packing an unpacked slot -/

/-- Unpacking changes a slot by a turn at most, so packing it again gives the slot. -/
theorem pack_unpackSigned {raw n : Nat} (hn : 1 ≤ n) (hraw : raw < 2 ^ n) : pack (unpackSigned raw n) n = .ok raw := by
  have hdouble := two_pow_eq_double hn
  have hpos : (0 : Int) < 2 ^ (n - 1) := by positivity
  obtain ⟨hlow, hhigh⟩ := of_decide_eq_true (signedFits_unpackSigned hn hraw)
  refine (pack_eq_ok_iff hn).2 ⟨⟨hlow, by omega⟩, ?_⟩
  have hraw' : (raw : Int) < 2 ^ n := by exact_mod_cast hraw
  unfold unpackSigned
  split
  · rw [Int.sub_emod_right, Int.emod_eq_of_lt (by omega) hraw']
  · rw [Int.emod_eq_of_lt (by omega) hraw']

theorem pack_natCast {raw n : Nat} (hn : 1 ≤ n) (hraw : raw < 2 ^ n) : pack (raw : Int) n = .ok raw := by
  have hraw' : (raw : Int) < 2 ^ n := by exact_mod_cast hraw
  have hpos : (0 : Int) < 2 ^ (n - 1) := by positivity
  exact (pack_eq_ok_iff hn).2 ⟨⟨by omega, by omega⟩, (Int.emod_eq_of_lt (by omega) hraw').symm⟩

/-! ### Fields -/

/-- A field whose packed value stands in its slot decodes to the canonical value. -/
theorem decodeField_of_pack {f : Field} {v : Int} {w : Nat} (hn : 1 ≤ f.width)
    (h : pack v f.width = .ok (extract w f.offset f.width)) : decodeField w f = canonicalValue f v := by
  unfold decodeField canonicalValue
  cases f.kind with
  | reg => exact unpackUnsigned_of_pack hn h
  | imm => exact unpackUnsigned_of_pack hn h
  | simm => exact unpackSigned_of_pack hn h

/-- A decoded field packs to the slot it was read from. -/
theorem pack_decodeField {f : Field} (hn : 1 ≤ f.width) (w : Nat) :
    pack (decodeField w f) f.width = .ok (extract w f.offset f.width) := by
  have hraw := extract_lt w f.offset f.width
  unfold decodeField
  cases f.kind with
  | reg => rw [unpackUnsigned_extract, pack_natCast hn hraw]
  | imm => rw [unpackUnsigned_extract, pack_natCast hn hraw]
  | simm => exact pack_unpackSigned hn hraw

theorem unsignedFits_natCast {k n : Nat} (h : k < 2 ^ n) : unsignedFits n k = true := by
  have h' : (k : Int) < 2 ^ n := by exact_mod_cast h
  exact decide_eq_true ⟨by omega, by omega⟩

/-- A decoded field is canonical for its kind. -/
theorem canonical_decodeField {f : Field} (hn : 1 ≤ f.width) (w : Nat) : f.canonical (decodeField w f) = true := by
  have hraw := extract_lt w f.offset f.width
  unfold Field.canonical decodeField
  cases f.kind with
  | reg => rw [unpackUnsigned_extract, unsignedFits_natCast hraw]
  | imm => rw [unpackUnsigned_extract, unsignedFits_natCast hraw]
  | simm => exact signedFits_unpackSigned hn hraw

/-- Canonical values are accepted, whatever the kind. -/
theorem accepted_of_canonical {f : Field} {v : Int} (hn : 1 ≤ f.width) (h : f.canonical v = true) :
    accepted f.width v := by
  have hdouble := two_pow_eq_double hn
  have hpos : (0 : Int) < 2 ^ (f.width - 1) := by positivity
  unfold Field.canonical at h
  cases hk : f.kind <;> rw [hk] at h <;> obtain ⟨hlow, hhigh⟩ := of_decide_eq_true h <;> constructor <;> omega

/-- A canonical value is its own canonical value. -/
theorem canonicalValue_of_canonical {f : Field} {v : Int} (h : f.canonical v = true) : canonicalValue f v = v := by
  unfold Field.canonical at h
  unfold canonicalValue
  cases hk : f.kind <;> rw [hk] at h <;> obtain ⟨hlow, hhigh⟩ := of_decide_eq_true h <;> exact if_neg (by omega)

end Sys2Proof

/-! PROOFS. The layout of a word (`30_encoding.md` R63 to R67, `40_codec.md` R99, R108): a format's fields follow one another
without a gap, from bit 4 up. So the Encoder's loop is a sum whose slots the decoder reads back, and the used bits of a word
are its lowest ones. -/

namespace Sys2Proof

open Machine (accepted canonicalValue)

/-! ### Fields without a gap -/

/-- The fields lie one after the other from bit `o` up, and none of them is empty. -/
def Contiguous : Nat → List Field → Prop
  | _, [] => True
  | o, f :: fs => f.offset = o ∧ 1 ≤ f.width ∧ Contiguous (o + f.width) fs

/-- How many bits the fields take together. -/
def totalWidth (fs : List Field) : Nat := (fs.map Field.width).sum

/-- How many bits of a format's word are used: the opcode's four and the fields'. -/
def usedBits (f : Format) : Nat := 4 + totalWidth f.fields

@[simp] theorem totalWidth_cons (f : Field) (fs : List Field) : totalWidth (f :: fs) = f.width + totalWidth fs := by
  simp [totalWidth]

theorem formatOf_contiguous (m : Mnemonic) : Contiguous 4 (formatOf m).fields := by
  cases m
  · exact ⟨rfl, by decide, rfl, by decide, trivial⟩
  · exact ⟨rfl, by decide, rfl, by decide, trivial⟩
  · exact ⟨rfl, by decide, rfl, by decide, rfl, by decide, trivial⟩
  · exact ⟨rfl, by decide, rfl, by decide, rfl, by decide, trivial⟩

theorem Contiguous.one_le_width {o : Nat} {fs : List Field} (h : Contiguous o fs) : ∀ f ∈ fs, 1 ≤ f.width := by
  induction fs generalizing o with
  | nil => simp
  | cons f fs ih =>
    obtain ⟨-, hwidth, hrest⟩ := h
    exact List.forall_mem_cons.2 ⟨hwidth, ih hrest⟩

theorem Contiguous.end_le {o : Nat} {fs : List Field} (h : Contiguous o fs) :
    ∀ f ∈ fs, f.offset + f.width ≤ o + totalWidth fs := by
  induction fs generalizing o with
  | nil => simp
  | cons f fs ih =>
    obtain ⟨rfl, -, hrest⟩ := h
    rw [totalWidth_cons, ← Nat.add_assoc]
    exact List.forall_mem_cons.2 ⟨Nat.le_add_right _ _, ih hrest⟩

theorem one_le_width {m : Mnemonic} {f : Field} (h : f ∈ (formatOf m).fields) : 1 ≤ f.width :=
  (formatOf_contiguous m).one_le_width f h

/-! ### One slot of a word -/

/-- A slot read from a word is read from any lower part of the word that holds the slot. -/
theorem extract_mod {o n e : Nat} (h : o + n ≤ e) (w : Nat) : extract (w % 2 ^ e) o n = extract w o n := by
  obtain ⟨k, rfl⟩ := Nat.exists_eq_add_of_le h
  unfold extract
  rw [Nat.add_assoc, Nat.pow_add, Nat.mod_mul_right_div_self, Nat.pow_add, Nat.mod_mul_right_mod]

/-- The low bits of a word with the next slot ORed in are the low bits up to the end of that slot. -/
theorem mod_or_extract (w o n : Nat) : w % 2 ^ o ||| (extract w o n <<< o) = w % 2 ^ (o + n) := by
  rw [or_shiftLeft_eq_add _ _ _ (Nat.mod_lt _ (by positivity)), extract, Nat.pow_add, Nat.mod_mul, Nat.mul_comm]

/-- A slot ORed in above a word's bits is read back. -/
theorem extract_or_shiftLeft {w p o n : Nat} (hw : w < 2 ^ o) (hp : p < 2 ^ n) :
    extract (w ||| (p <<< o)) o n = p := by
  rw [or_shiftLeft_eq_add w p o hw, extract, Nat.add_mul_div_right _ _ (by positivity), Nat.div_eq_of_lt hw,
    Nat.zero_add, Nat.mod_eq_of_lt hp]

theorem or_shiftLeft_mod {w o : Nat} (p : Nat) (hw : w < 2 ^ o) : (w ||| (p <<< o)) % 2 ^ o = w := by
  rw [or_shiftLeft_eq_add w p o hw, Nat.add_mul_mod_self_right, Nat.mod_eq_of_lt hw]

/-! ### The Encoder's loop over contiguous fields -/

/-- Where the loop ends, the word it started from stands below the fields, and each field's slot holds its packed value. -/
theorem packFields_slots {o : Nat} {fs : List Field} {vs : List Int} {w u : Nat} (hfs : Contiguous o fs)
    (hw : w < 2 ^ o) (h : packFields fs vs w = .ok u) :
    u % 2 ^ o = w ∧ List.Forall₂ (fun f v => pack v f.width = .ok (extract u f.offset f.width)) fs vs := by
  induction fs generalizing o vs w with
  | nil =>
    cases vs with
    | nil => cases h; exact ⟨Nat.mod_eq_of_lt hw, .nil⟩
    | cons v vs => cases h
  | cons f fs ih =>
    cases vs with
    | nil => cases h
    | cons v vs =>
      obtain ⟨p, hp, hrest⟩ := packFields_ok_cons h
      obtain ⟨rfl, -, hfs⟩ := hfs
      have hplt := pack_lt hp
      have hw' : w ||| (p <<< f.offset) < 2 ^ (f.offset + f.width) :=
        Nat.or_lt_two_pow (hw.trans_le (Nat.pow_le_pow_right two_pos (Nat.le_add_right _ _)))
          (Nat.add_comm f.width _ ▸ Nat.shiftLeft_lt hplt)
      obtain ⟨hlow, hslots⟩ := ih hfs hw' hrest
      refine ⟨?_, .cons ?_ hslots⟩
      · rw [← or_shiftLeft_mod p hw, ← hlow, Nat.mod_mod_of_dvd _ (Nat.pow_dvd_pow 2 (Nat.le_add_right _ _))]
      · rw [← extract_mod le_rfl u, hlow, extract_or_shiftLeft hw hplt, hp]

/-- Where every value packs to its slot of a word, the loop rebuilds the word from the bits below the fields. -/
theorem packFields_of_slots {o : Nat} {fs : List Field} {vs : List Int} (u : Nat) (hfs : Contiguous o fs)
    (h : List.Forall₂ (fun f v => pack v f.width = .ok (extract u f.offset f.width)) fs vs) :
    packFields fs vs (u % 2 ^ o) = .ok (u % 2 ^ (o + totalWidth fs)) := by
  induction h generalizing o with
  | nil => rfl
  | cons hp _ ih =>
    obtain ⟨rfl, -, hfs⟩ := hfs
    rw [packFields_cons_of_pack hp, mod_or_extract, ih hfs, totalWidth_cons, Nat.add_assoc]

/-- The loop succeeds exactly where there is one value per field and every value packs. -/
theorem packFields_ok_iff {fs : List Field} {vs : List Int} (w : Nat) :
    (∃ u, packFields fs vs w = .ok u) ↔ List.Forall₂ (fun f v => ∃ p, pack v f.width = .ok p) fs vs := by
  induction fs generalizing vs w with
  | nil => cases vs <;> simp [packFields]
  | cons f fs ih =>
    cases vs with
    | nil => simp [packFields]
    | cons v vs =>
      rw [List.forall₂_cons]
      constructor
      · rintro ⟨u, hu⟩
        obtain ⟨p, hp, hrest⟩ := packFields_ok_cons hu
        exact ⟨⟨p, hp⟩, (ih _).1 ⟨u, hrest⟩⟩
      · rintro ⟨⟨p, hp⟩, hrest⟩
        rw [packFields_cons_of_pack hp]
        exact (ih _).2 hrest

/-! ### The used bits -/

theorem opcode_lt (m : Mnemonic) : (formatOf m).opcode < 2 ^ 4 := by cases m <;> decide

theorem formatByOpcode_formatOf (m : Mnemonic) : formatByOpcode (formatOf m).opcode = some (formatOf m) := by
  cases m <;> rfl

theorem usedMask_eq (m : Mnemonic) : usedMask (formatOf m) = 2 ^ usedBits (formatOf m) - 1 := by cases m <;> rfl

theorem usedBits_le (m : Mnemonic) : usedBits (formatOf m) ≤ 8 * ilen m := by cases m <;> decide

/-- Masking a word with its used bits keeps its lowest bits, as many as are used. -/
theorem and_usedMask (w : Nat) (m : Mnemonic) : w &&& usedMask (formatOf m) = w % 2 ^ usedBits (formatOf m) := by
  rw [usedMask_eq, Nat.and_two_pow_sub_one_eq_mod]

/-- The used bits hold the opcode. -/
theorem mod_usedBits_mod_16 (w : Nat) (m : Mnemonic) : w % 2 ^ usedBits (formatOf m) % 16 = w % 16 :=
  Nat.mod_mod_of_dvd w (Nat.pow_dvd_pow 2 (Nat.le_add_right 4 _))

/-- Settles O6: the loop stays within the used bits, and masking with them keeps what is below. -/
theorem encoderWritesUnusedBitsZero : Obligations.EncoderWritesUnusedBitsZero := by
  unfold Obligations.EncoderWritesUnusedBitsZero
  intro m vals w h
  have hopcode : (formatOf m).opcode < 2 ^ usedBits (formatOf m) :=
    (opcode_lt m).trans_le (Nat.pow_le_pow_right two_pos (Nat.le_add_right 4 _))
  have hlt : w < 2 ^ usedBits (formatOf m) := packFields_lt (formatOf_contiguous m).end_le hopcode h
  refine ⟨by rw [and_usedMask, Nat.mod_eq_of_lt hlt], ?_⟩
  cases m <;> exact hlt

/-! ### The Encoder's success -/

theorem encodeFields_of_encodeWord {m : Mnemonic} {vals : List Int} {w : Nat} (h : encodeWord m vals = .ok w) :
    encodeFields m vals = .ok (serialize w (ilen m)) := by
  rw [encodeFields, h, ilen]

theorem encodeFields_eq_ok_iff {m : Mnemonic} {vals : List Int} {bs : List Byte} :
    encodeFields m vals = .ok bs ↔ ∃ w, encodeWord m vals = .ok w ∧ bs = serialize w (ilen m) := by
  unfold encodeFields
  cases encodeWord m vals with
  | error e => simp
  | ok w => simp [ilen, eq_comm]

/-- What a relation says of each value of a known field, another relation may say. -/
theorem forall₂_imp_of_mem {R S : Field → Int → Prop} {fs : List Field} {vs : List Int}
    (h : ∀ f ∈ fs, ∀ v, R f v → S f v) (hR : List.Forall₂ R fs vs) : List.Forall₂ S fs vs :=
  ((List.forall₂_and_left fs vs).2 ⟨h, hR⟩).imp fun _ _ ⟨hf, hv⟩ => hf _ hv

theorem encodeWord_ok_iff {m : Mnemonic} {vals : List Int} :
    (∃ w, encodeWord m vals = .ok w) ↔ List.Forall₂ (fun f v => accepted f.width v) (formatOf m).fields vals := by
  refine (packFields_ok_iff _).trans ⟨forall₂_imp_of_mem fun f hf v => ?_, forall₂_imp_of_mem fun f hf v => ?_⟩
  · exact (pack_ok_iff_accepted (one_le_width hf)).1
  · exact (pack_ok_iff_accepted (one_le_width hf)).2

/-- Settles O8: the loop packs value by value, and `pack` succeeds on the accepted values. -/
theorem encoderSucceedsExactlyOnAcceptedValues : Obligations.EncoderSucceedsExactlyOnAcceptedValues := by
  unfold Obligations.EncoderSucceedsExactlyOnAcceptedValues
  intro m vals
  rw [← encodeWord_ok_iff]
  constructor
  · rintro ⟨bs, hbs⟩
    obtain ⟨w, hw, -⟩ := encodeFields_eq_ok_iff.1 hbs
    exact ⟨w, hw⟩
  · rintro ⟨w, hw⟩
    exact ⟨_, encodeFields_of_encodeWord hw⟩

/-! ### The Encoder's failure -/

/-- The first field whose value is not accepted, with its name, value and width. -/
def FirstOverflow (fs : List Field) (vs : List Int) (name : FieldName) (v : Int) (n : Nat) : Prop :=
  ∃ (j : Nat) (f : Field), fs[j]? = some f ∧ vs[j]? = some v ∧ f.name = name ∧ f.width = n ∧ ¬ accepted n v ∧
    ∀ k < j, ∀ (g : Field) (u : Int), fs[k]? = some g → vs[k]? = some u → accepted g.width u

theorem not_firstOverflow_nil (name : FieldName) (v : Int) (n : Nat) : ¬ FirstOverflow [] [] name v n := by
  rintro ⟨j, f, hf, -⟩
  simp at hf

/-- The first bad field is the head, where its value is bad, and else the first bad one of the others. -/
theorem firstOverflow_cons_of_not_accepted {f : Field} {u : Int} (h : ¬ accepted f.width u) (fs : List Field)
    (vs : List Int) (name : FieldName) (v : Int) (n : Nat) :
    FirstOverflow (f :: fs) (u :: vs) name v n ↔ f.name = name ∧ u = v ∧ f.width = n := by
  constructor
  · rintro ⟨j, g, hg, hv, hname, hwidth, -, hbefore⟩
    cases j with
    | zero => cases hg; cases hv; exact ⟨hname, rfl, hwidth⟩
    | succ j => exact absurd (hbefore 0 j.succ_pos f u rfl rfl) h
  · rintro ⟨rfl, rfl, rfl⟩
    exact ⟨0, f, rfl, rfl, rfl, rfl, h, fun k hk => absurd hk k.not_lt_zero⟩

theorem firstOverflow_cons_of_accepted {f : Field} {u : Int} (h : accepted f.width u) (fs : List Field)
    (vs : List Int) (name : FieldName) (v : Int) (n : Nat) :
    FirstOverflow (f :: fs) (u :: vs) name v n ↔ FirstOverflow fs vs name v n := by
  constructor
  · rintro ⟨j, g, hg, hv, hname, hwidth, hbad, hbefore⟩
    cases j with
    | zero => cases hg; cases hv; exact absurd (hwidth ▸ h) hbad
    | succ j => exact ⟨j, g, hg, hv, hname, hwidth, hbad, fun k hk => hbefore (k + 1) (Nat.succ_lt_succ hk)⟩
  · rintro ⟨j, g, hg, hv, hname, hwidth, hbad, hbefore⟩
    refine ⟨j + 1, g, hg, hv, hname, hwidth, hbad, fun k hk g' u' hg' hu' => ?_⟩
    cases k with
    | zero => cases hg'; cases hu'; exact h
    | succ k => exact hbefore k (Nat.lt_of_succ_lt_succ hk) g' u' hg' hu'

/-- The loop's failure is the first bad field's. -/
theorem packFields_eq_fieldOverflow_iff {fs : List Field} {vs : List Int} {name : FieldName} {v : Int} {n : Nat}
    (w : Nat) (hfs : ∀ f ∈ fs, 1 ≤ f.width) (hl : vs.length = fs.length) :
    packFields fs vs w = .error (.fieldOverflow name v n) ↔ FirstOverflow fs vs name v n := by
  induction fs generalizing vs w with
  | nil =>
    obtain rfl := List.length_eq_zero_iff.1 hl
    exact iff_of_false (fun h => by cases h) (not_firstOverflow_nil name v n)
  | cons f fs ih =>
    obtain ⟨u, vs, rfl⟩ := List.exists_cons_of_length_eq_add_one hl
    obtain ⟨hf, hfs⟩ := List.forall_mem_cons.1 hfs
    cases hp : pack u f.width with
    | ok p =>
      rw [packFields_cons_of_pack hp, ih _ hfs (Nat.succ.inj hl),
        firstOverflow_cons_of_accepted ((pack_ok_iff_accepted hf).1 ⟨p, hp⟩)]
    | error e =>
      obtain rfl := pack_error hp
      have hbad : ¬ accepted f.width u := fun h => by
        obtain ⟨p, hp'⟩ := (pack_ok_iff_accepted hf).2 h
        rw [hp] at hp'
        cases hp'
      rw [packFields, hp, firstOverflow_cons_of_not_accepted hbad]
      simp

/-- Settles O9: the loop's failure, for the fields of a format. -/
theorem encoderNamesTheFirstBadField : Obligations.EncoderNamesTheFirstBadField := by
  unfold Obligations.EncoderNamesTheFirstBadField
  intro m vals name v n hl
  exact packFields_eq_fieldOverflow_iff (formatOf m).opcode (formatOf_contiguous m).one_le_width hl

end Sys2Proof

/-! PROOFS. The round trips (`40_codec.md` section 4): decoding gives well-formed instructions and looks at the used bits
alone, encoding a decoded word rebuilds those bits, and decoding an encoding gives the canonical values. -/

namespace Sys2Proof

open Machine (accepted canonicalValue)

/-! ### An instruction is its mnemonic and its values -/

theorem Instr.eq_of_values {i j : Instr} (hm : i.mnemonic = j.mnemonic) (hv : i.values = j.values) : i = j := by
  cases i with
  | lc b c => cases j <;> cases hm; simpa [Instr.values, Fin.ext_iff] using hv
  | stm b c => cases j <;> cases hm; simpa [Instr.values, Fin.ext_iff] using hv
  | ldm b c d => cases j <;> cases hm; simpa [Instr.values, Fin.ext_iff] using hv
  | ge b c d => cases j <;> cases hm; simpa [Instr.values, Fin.ext_iff] using hv

theorem unsignedFits_regIdx (r : RegIdx) : unsignedFits 7 (r.val : Int) = true := unsignedFits_natCast r.isLt

/-- An instruction is well formed exactly where each of its values is canonical for its field. -/
theorem Instr.wf_iff (i : Instr) :
    i.wf = true ↔ List.Forall₂ (fun f v => f.canonical v = true) (formatOf i.mnemonic).fields i.values := by
  cases i with
  | lc b c =>
    simp [Instr.wf, Instr.mnemonic, Instr.values, formatOf, lcFormat, Field.canonical, unsignedFits_regIdx]
  | stm b c =>
    simp [Instr.wf, Instr.mnemonic, Instr.values, formatOf, stmFormat, Field.canonical, unsignedFits_regIdx]
  | ldm b c d =>
    simp [Instr.wf, Instr.mnemonic, Instr.values, formatOf, ldmFormat, Field.canonical, unsignedFits_regIdx]
  | ge b c d =>
    simp [Instr.wf, Instr.mnemonic, Instr.values, formatOf, geFormat, Field.canonical, unsignedFits_regIdx]

/-! ### What decoding a word gives -/

/-- The values of a decoded instruction are its format's fields, each decoded. -/
theorem values_decodeFormat (m : Mnemonic) (w : Nat) :
    (decodeFormat (formatOf m) w).values = (formatOf m).fields.map (decodeField w) := by
  have hreg (o : Nat) : ((extract w o 7 % 128 : Nat) : Int) = unpackUnsigned (extract w o 7) 7 := rfl
  have himm (o n : Nat) : ((extract w o n : Nat) : Int) = unpackUnsigned (extract w o n) n :=
    (unpackUnsigned_extract w o n).symm
  cases m with
  | lc => rw [formatOf, decodeFormat_lc]; rfl
  | stm => rw [formatOf, decodeFormat_stm, Instr.values, himm]; rfl
  | ldm => rw [formatOf, decodeFormat_ldm]; rfl
  | ge => rw [formatOf, decodeFormat_ge, Instr.values, himm 11]; rfl

/-- A relation between fields and their decoded values. -/
theorem forall₂_map_decodeField {R : Field → Int → Prop} {fs : List Field} {w : Nat}
    (h : ∀ f ∈ fs, R f (decodeField w f)) : List.Forall₂ R fs (fs.map (decodeField w)) :=
  List.forall₂_map_right_iff.2 (List.forall₂_same.2 h)

theorem wf_decodeFormat (m : Mnemonic) (w : Nat) : (decodeFormat (formatOf m) w).wf = true := by
  have hmnemonic : (decodeFormat (formatOf m) w).mnemonic = m := by
    rw [decodeFormat_mnemonic]
    cases m <;> rfl
  rw [Instr.wf_iff, values_decodeFormat, hmnemonic]
  exact forall₂_map_decodeField fun f hf => canonical_decodeField (one_le_width hf) w

/-- A looked-up format decodes every word to a well-formed instruction. -/
theorem wf_decodeFormat_of_lookup {a : Nat} {f : Format} (h : formatByOpcode a = some f) (w : Nat) :
    (decodeFormat f w).wf = true := by
  obtain ⟨hf, -⟩ := formatOf_of_formatByOpcode h
  exact hf ▸ wf_decodeFormat f.mnemonic w

/-- Settles O13: a lookup decides, and what it selects reads canonical values. -/
theorem decodedInstructionsAreWellFormed : Obligations.DecodedInstructionsAreWellFormed := by
  unfold Obligations.DecodedInstructionsAreWellFormed
  refine fun w => ⟨fun h => by rw [decodeWord, h, Option.map_none], fun f hf => ?_⟩
  exact ⟨decodeFormat f w, (decodeWord_eq_some_iff w _).2 ⟨f, hf, rfl⟩, wf_decodeFormat_of_lookup hf w,
    decodeFormat_mnemonic f w⟩

/-! ### The unused bits -/

theorem decodeField_mod {f : Field} {e : Nat} (h : f.offset + f.width ≤ e) (w : Nat) :
    decodeField (w % 2 ^ e) f = decodeField w f := by
  simp only [decodeField, extract_mod h]

/-- A format reads no bit above its used ones. -/
theorem decodeFormat_mod_usedBits (m : Mnemonic) (w : Nat) :
    decodeFormat (formatOf m) (w % 2 ^ usedBits (formatOf m)) = decodeFormat (formatOf m) w := by
  have hfields : decodeRecord (formatOf m) (w % 2 ^ usedBits (formatOf m)) = decodeRecord (formatOf m) w :=
    List.map_congr_left fun f hf => congrArg (Prod.mk f.name) (decodeField_mod ((formatOf_contiguous m).end_le f hf) w)
  rw [decodeFormat, hfields, decodeFormat]

/-- Settles O5: masking keeps the nibble, so the same format reads the same used bits. -/
theorem unusedBitsAreIgnored : Obligations.UnusedBitsAreIgnored := by
  unfold Obligations.UnusedBitsAreIgnored
  intro w f hf
  obtain ⟨m, rfl⟩ : ∃ m, formatOf m = f := ⟨f.mnemonic, (formatOf_of_formatByOpcode hf).1⟩
  rw [and_usedMask, decodeWord, decodeWord, mod_usedBits_mod_16, hf, Option.map_some, Option.map_some,
    decodeFormat_mod_usedBits]

/-- Settles O4: each decoded value packs to the slot it came from, so the loop rebuilds the used bits. -/
theorem reencodingClearsUnusedBits : Obligations.ReencodingClearsUnusedBits := by
  unfold Obligations.ReencodingClearsUnusedBits
  intro w i h _
  obtain ⟨hopcode, hdecode⟩ := decodeFormat_formatOf_of_decodeWord h
  have hvalues : i.values = (formatOf i.mnemonic).fields.map (decodeField w) := by
    rw [← values_decodeFormat, hdecode]
  have hword : i.word = .ok (w &&& usedMask (formatOf i.mnemonic)) := by
    rw [Instr.word, encodeWord, hopcode, hvalues, and_usedMask]
    exact packFields_of_slots w (formatOf_contiguous i.mnemonic)
      (forall₂_map_decodeField fun f hf => pack_decodeField (one_le_width hf) w)
  exact ⟨hword, by rw [hword, Except.ok.injEq]⟩

/-! ### Decoding an encoding -/

theorem encodeWord_slots {m : Mnemonic} {vals : List Int} {w : Nat} (h : encodeWord m vals = .ok w) :
    w % 16 = (formatOf m).opcode ∧
      List.Forall₂ (fun f v => pack v f.width = .ok (extract w f.offset f.width)) (formatOf m).fields vals :=
  packFields_slots (formatOf_contiguous m) (opcode_lt m) h

theorem map_eq_zipWith_of_forall₂ {fs : List Field} {vs : List Int} {g : Field → Int} {c : Field → Int → Int}
    (h : List.Forall₂ (fun f v => g f = c f v) fs vs) : fs.map g = List.zipWith c fs vs := by
  induction h with
  | nil => rfl
  | cons hhead _ ih => rw [List.map_cons, List.zipWith_cons_cons, hhead, ih]

/-- The Encoder's word decodes to the canonical values. -/
theorem values_decodeFormat_encodeWord {m : Mnemonic} {vals : List Int} {w : Nat} (h : encodeWord m vals = .ok w) :
    (decodeFormat (formatOf m) w).values = List.zipWith canonicalValue (formatOf m).fields vals := by
  obtain ⟨-, hslots⟩ := encodeWord_slots h
  rw [values_decodeFormat]
  exact map_eq_zipWith_of_forall₂ (forall₂_imp_of_mem (fun f hf _ => decodeField_of_pack (one_le_width hf)) hslots)

theorem zipWith_canonicalValue_of_canonical {fs : List Field} {vs : List Int}
    (h : List.Forall₂ (fun f v => f.canonical v = true) fs vs) : List.zipWith canonicalValue fs vs = vs := by
  induction h with
  | nil => rfl
  | cons hhead _ ih => rw [List.zipWith_cons_cons, canonicalValue_of_canonical hhead, ih]

theorem toNat_ofNat_mod_16 (w : Nat) : (BitVec.ofNat 8 w).toNat % 16 = w % 16 := by
  rw [BitVec.toNat_ofNat]
  omega

/-- The first byte of a serialised word holds its nibble. -/
theorem serialize_ilen (m : Mnemonic) (w : Nat) :
    ∃ b rest, serialize w (ilen m) = b :: rest ∧ b.toNat % 16 = w % 16 := by
  obtain ⟨k, hk⟩ : ∃ k, ilen m = k + 1 := Nat.exists_eq_add_one_of_ne_zero (by have := ilen_pos m; omega)
  rw [hk, serialize_succ]
  exact ⟨_, _, rfl, toNat_ofNat_mod_16 w⟩

/-- Settles O7: the nibble of the first byte is the word's, in which the loop never touches the opcode. -/
theorem opcodeNibbleIsIsolated : Obligations.OpcodeNibbleIsIsolated := by
  unfold Obligations.OpcodeNibbleIsIsolated
  intro m vals bs h
  obtain ⟨w, hw, rfl⟩ := encodeFields_eq_ok_iff.1 h
  obtain ⟨hopcode, -⟩ := encodeWord_slots hw
  obtain ⟨b, rest, hbytes, hnibble⟩ := serialize_ilen m w
  exact ⟨serialize_length w _, b, rest, hbytes, hnibble.trans hopcode⟩

/-- The decoder takes an encoding's bytes, whatever follows them, and reads the Encoder's word. -/
theorem decodeBytes_serialize_append {m : Mnemonic} {vals : List Int} {w : Nat} (h : encodeWord m vals = .ok w)
    (rest : List Byte) :
    decodeBytes (serialize w (ilen m) ++ rest) = .ok (decodeFormat (formatOf m) w, rest) := by
  obtain ⟨hopcode, -⟩ := encodeWord_slots h
  obtain ⟨b, bs, hbytes, hnibble⟩ := serialize_ilen m w
  have hlookup : formatByOpcode (b.toNat % 16) = some (formatOf m) := by
    rw [hnibble, hopcode, formatByOpcode_formatOf]
  have hlength : (serialize w (ilen m)).length = (formatOf m).size := serialize_length w _
  have hword : deserialize ((serialize w (ilen m) ++ rest).take (formatOf m).size) = w := by
    rw [List.take_left' hlength, deserialize_serialize (encodeWord_lt h)]
  have hrest : (serialize w (ilen m) ++ rest).drop (formatOf m).size = rest := List.drop_left' hlength
  have hfits : (formatOf m).size ≤ (serialize w (ilen m) ++ rest).length := by
    rw [List.length_append, hlength]
    exact Nat.le_add_right _ _
  rw [hbytes, List.cons_append] at hword hrest hfits ⊢
  rw [decodeBytes, hlookup]
  simp only [if_neg (Nat.not_lt.2 hfits), hword, hrest]

/-- What the Encoder accepts decodes, whatever bytes follow it, to the instruction of its mnemonic with the canonical
values. -/
theorem decodeBytes_encodeFields_append {m : Mnemonic} {vals : List Int} {bs : List Byte}
    (h : encodeFields m vals = .ok bs) :
    ∃ i, i.mnemonic = m ∧ i.values = List.zipWith canonicalValue (formatOf m).fields vals ∧
      ∀ rest, decodeBytes (bs ++ rest) = .ok (i, rest) := by
  obtain ⟨w, hw, rfl⟩ := encodeFields_eq_ok_iff.1 h
  have hmnemonic : (formatOf m).mnemonic = m := by cases m <;> rfl
  exact ⟨_, (decodeFormat_mnemonic _ w).trans hmnemonic, values_decodeFormat_encodeWord hw,
    decodeBytes_serialize_append hw⟩

/-- Settles O3: accepted values encode, and the encoding decodes to the canonical ones. -/
theorem acceptedValuesRoundTrip : Obligations.AcceptedValuesRoundTrip := by
  unfold Obligations.AcceptedValuesRoundTrip
  intro m vals haccepted
  obtain ⟨bs, hbs⟩ := (encoderSucceedsExactlyOnAcceptedValues m vals).2 haccepted
  obtain ⟨i, hmnemonic, hvalues, hdecode⟩ := decodeBytes_encodeFields_append hbs
  refine ⟨bs, i, hbs, by simpa using hdecode [], hmnemonic, hvalues, fun hcanonical => ?_⟩
  rw [hvalues, zipWith_canonicalValue_of_canonical hcanonical]

/-- Settles O2: the values of a well-formed instruction are canonical, so they come back, and with them the instruction. -/
theorem decodeInvertsEncode : Obligations.DecodeInvertsEncode := by
  unfold Obligations.DecodeInvertsEncode
  intro i rest hwf
  have hcanonical := i.wf_iff.1 hwf
  have haccepted := forall₂_imp_of_mem (fun f hf v => accepted_of_canonical (one_le_width hf)) hcanonical
  obtain ⟨bs, hbs⟩ := (encoderSucceedsExactlyOnAcceptedValues i.mnemonic i.values).2 haccepted
  obtain ⟨j, hmnemonic, hvalues, hdecode⟩ := decodeBytes_encodeFields_append hbs
  obtain ⟨hlength, -⟩ := opcodeNibbleIsIsolated i.mnemonic i.values bs hbs
  rw [zipWith_canonicalValue_of_canonical hcanonical] at hvalues
  rw [Instr.eq_of_values hmnemonic hvalues] at hdecode
  exact ⟨bs, hbs, hlength, hdecode rest⟩

/-- Settles O1: nine byte groups, each decoded by evaluation. -/
theorem writtenOutWordsDecode : Obligations.WrittenOutWordsDecode := by
  unfold Obligations.WrittenOutWordsDecode
  decide

end Sys2Proof

/-! PROOFS. What one step can do, once, and the instructions' remaining effects (`41_fetch_dispatch.md` R120 to R131,
`42_instructions.md` section 1, `60_exceptions.md` R168, R169): the fetch of bytes, the faults in their order, the store. -/

namespace Sys2Proof.Machine

/-! ### STM, LDM and the traps -/

/-- Settles O21: below `MEM_SIZE` the store is made, and of the state it changes the one cell. -/
theorem stmStoresTheWholeRegister : Obligations.StmStoresTheWholeRegister := by
  unfold Obligations.StmStoresTheWholeRegister
  intro b c s hm hb
  refine ⟨_, exec_stm_of_lt c hb, ?_, fun a ha => ?_, fun _ => rfl, rfl, rfl, rfl, rfl⟩
  · rw [advance_cell, State.cell_setCell_same hm]
  · have hab : a ≠ b := fun h => ha (congrArg Nat.cast h)
    rw [advance_cell, State.cell_setCell s hm, if_neg hab]

/-- Settles O22: an exact sum inside the memory is a cell's address, and the one write goes to the destination. -/
theorem ldmLoadsTheWholeCell : Obligations.LdmLoadsTheWholeCell := by
  unfold Obligations.LdmLoadsTheWholeCell
  intro b c d s hlow hhigh
  have hsum : s.regInt d + b = ((s.reg d).toInt + b).toNat := (Int.toNat_of_nonneg hlow).symm
  refine ⟨_, exec_ldm_of_sum c hsum (by omega), ?_, advance_setReg_frame .ldm c _ s⟩
  rw [advance_reg, State.reg_setReg_same]

/-- Settles O24: outside the memory each of the three takes its fault on the state before. -/
theorem outOfBoundsAccessTraps : Obligations.OutOfBoundsAccessTraps := by
  unfold Obligations.OutOfBoundsAccessTraps
  refine ⟨fun b c s hb => ?stm, fun b c d s hsum => ?ldm, fun b c d s hc => ?ge⟩
  case stm =>
    rcases execStm_eq b c s with ⟨hin, -⟩ | ⟨-, e⟩
    · exact absurd hin (Nat.not_lt.2 hb)
    · exact e
  case ldm =>
    rcases execLdm_eq b c d s with ⟨⟨hlow, hhigh⟩, -⟩ | ⟨-, e⟩
    · unfold State.regInt at hlow hhigh
      omega
    · exact e
  case ge =>
    rcases execGe_eq b c d s with ⟨hin, -⟩ | ⟨-, e⟩
    · exact absurd hin (Nat.not_lt.2 hc)
    · exact e

/-! ### The steps that answer a next state -/

/-- A next state's three origins: a halted Core, a fault of fetch, an executed instruction. -/
theorem step_next_cases {s t : State} (h : step s = .next t) :
    (s.fault = none ∧ s.progLen ≤ s.pc ∧ t = s) ∨
      (s.running = true ∧ ∃ f, fetchInstr s = .error f ∧ t = takeFault f s) ∨
      (s.running = true ∧ ∃ i, fetchInstr s = .ok i ∧ exec i s = .next t) := by
  rcases step_cases s with ⟨f, -, e⟩ | ⟨hclear, hend, e⟩ | ⟨hrun, f, hf, e⟩ | ⟨hrun, i, hi, e⟩ <;> rw [e] at h
  · cases h
  · cases h
    exact .inl ⟨hclear, hend, rfl⟩
  · cases h
    exact .inr (.inl ⟨hrun, f, hf, rfl⟩)
  · exact .inr (.inr ⟨hrun, i, hi, h⟩)

/-- What an executed instruction made of the state: a trap, one register written (LC's constant, a truth value or a cell), or
one cell stored. -/
theorem exec_next_cases {i : Instr} {s t : State} (h : exec i s = .next t) :
    (∃ a : Int, (a < 0 ∨ (s.memSize : Int) ≤ a) ∧ t = takeFault (.outOfBounds a) s) ∨
      (∃ (d : RegIdx) (v : Word), (∀ b c, i ≠ .stm b c) ∧
        ((∃ b c, i = .lc b c ∧ v = constant c) ∨ v = 0 ∨ v = 1 ∨ ∃ a, v = s.cell a) ∧
        t = advance i.mnemonic (s.setReg d v)) ∨
      ∃ b c, i = .stm b c ∧ b < s.memSize ∧ t = advance .stm (s.setCell b (s.reg c)) := by
  rcases exec_cases i s with ⟨a, ha, e⟩ | ⟨d, v, hi, hv, e⟩ | ⟨b, c, hi, hb, e⟩ <;> rw [e] at h <;> cases h
  · exact .inl ⟨a, ha, rfl⟩
  · refine .inr (.inl ⟨d, v, hi, ?_, rfl⟩)
    rcases hv with hconstant | hother
    · cases i with
      | lc b c => exact .inl ⟨b, c, rfl, hconstant⟩
      | stm b c => exact absurd rfl (hi b c)
      | ldm b c d => exact .inr (.inl hconstant)
      | ge b c d => exact .inr (.inl hconstant)
    · exact .inr hother
  · exact .inr (.inr ⟨b, c, hi, hb, rfl⟩)

theorem step_of_latched {s : State} {f : Fault} (h : s.fault = some f) : step s = .fault f := by
  simp only [step, phase, h]

theorem step_of_halted {s : State} (h : s.halted) : step s = .next s := by
  obtain ⟨hclear, hend⟩ := h
  simp only [step, phase, hclear, if_neg (Nat.not_lt.2 hend)]

theorem step_of_fetch_error {s : State} {f : Fault} (hrun : s.running = true) (h : fetchInstr s = .error f) :
    step s = .next (takeFault f s) := by
  obtain ⟨hclear, hpc⟩ := s.running_iff.1 hrun
  simp only [step, phase, hclear, if_pos hpc, h]

theorem step_of_fetch_ok {s : State} {i : Instr} (hrun : s.running = true) (h : fetchInstr s = .ok i) :
    step s = exec i s := by
  obtain ⟨hclear, hpc⟩ := s.running_iff.1 hrun
  simp only [step, phase, hclear, if_pos hpc, h]

/-- A Core that does not run stays as it is. -/
theorem eq_of_step_of_not_running {s t : State} (hrun : s.running = false) (h : step s = .next t) : t = s := by
  rcases step_next_cases h with ⟨-, -, rfl⟩ | ⟨hrun', -⟩ | ⟨hrun', -⟩
  · rfl
  · rw [hrun] at hrun'
    cases hrun'
  · rw [hrun] at hrun'
    cases hrun'

/-! ### The end of a run -/

/-- Settles O29: a halted Core steps to itself, a faulted one answers at its first step. -/
theorem endedRunsStayEnded : Obligations.EndedRunsStayEnded := by
  unfold Obligations.EndedRunsStayEnded
  refine ⟨fun s k h => ?_, fun s k f h => runSteps_of_fault (step_of_latched h) k⟩
  induction k with
  | zero => rfl
  | succ k ih => rw [runSteps_of_next (step_of_halted h), ih]

/-- Settles O28: of the next states with a latched fault, none completed an instruction. -/
theorem faultEntryKeepsEverythingElse : Obligations.FaultEntryKeepsEverythingElse := by
  unfold Obligations.FaultEntryKeepsEverythingElse
  intro s t hclear hstep hfault
  have htrap (f : Fault) : ∃ g, takeFault f s = { s with fault := some g } ∧ step (takeFault f s) = .fault g :=
    ⟨f, rfl, step_of_latched (takeFault_fault f s)⟩
  rcases step_next_cases hstep with ⟨-, -, rfl⟩ | ⟨-, f, -, rfl⟩ | ⟨-, i, -, hexec⟩
  · exact absurd hclear hfault
  · exact htrap f
  · rcases exec_next_cases hexec with ⟨a, -, rfl⟩ | ⟨d, v, -, -, rfl⟩ | ⟨b, c, -, -, rfl⟩
    · exact htrap _
    · exact absurd hclear hfault
    · exact absurd hclear hfault

/-! ### The fetch of bytes -/

theorem fetchCells_succ_of_isByte {s : State} {addr : Nat} (h : isByte (s.cell addr)) (k : Nat) :
    fetchCells s addr (k + 1) =
      (fetchCells s (addr + 1) k).map fun w => (s.cell addr).toInt.toNat + 2 ^ 8 * w := by
  obtain ⟨hlow, hhigh⟩ := h
  rw [fetchCells]
  simp only [if_neg (show ¬ ((s.cell addr).toInt < 0 ∨ 255 < (s.cell addr).toInt) by omega)]
  cases fetchCells s (addr + 1) k <;> rfl

/-- Cells that are all bytes are fetched. -/
theorem fetchCells_of_isByte {s : State} {addr k : Nat} (h : ∀ j < k, isByte (s.cell (addr + j))) :
    ∃ w, fetchCells s addr k = .ok w := by
  cases hw : fetchCells s addr k with
  | ok w => exact ⟨w, rfl⟩
  | error f =>
    obtain ⟨j, hj, -, hbad, -⟩ := fetchCells_error hw
    obtain ⟨hlow, hhigh⟩ := h j hj
    omega

/-- The lowest cell that is no byte is the one the fetch names. -/
theorem fetchCells_of_first_not_isByte {s : State} {addr k j : Nat} (hj : j < k) (hbad : ¬ isByte (s.cell (addr + j)))
    (hbefore : ∀ i < j, isByte (s.cell (addr + i))) : fetchCells s addr k = .error (.fetchNonByte (addr + j)) := by
  cases hw : fetchCells s addr k with
  | ok w => exact absurd (fetchCells_ok hw j hj) hbad
  | error f =>
    obtain ⟨j', -, rfl, hbad', hbefore'⟩ := fetchCells_error hw
    rcases Nat.lt_trichotomy j' j with hlt | rfl | hlt
    · obtain ⟨hlow, hhigh⟩ := hbefore j' hlt
      omega
    · rfl
    · exact absurd (hbefore' j hlt) hbad

/-- The word of fetched cells holds each cell in its byte. -/
theorem fetchCells_byte {s : State} {addr k w j : Nat} (h : fetchCells s addr k = .ok w) (hj : j < k) :
    ((w / 2 ^ (8 * j) % 2 ^ 8 : Nat) : Int) = (s.cell (addr + j)).toInt := by
  induction k generalizing addr w j with
  | zero => exact absurd hj j.not_lt_zero
  | succ k ih =>
    obtain ⟨hlow, hhigh⟩ := fetchCells_ok h 0 k.succ_pos
    obtain ⟨u, hu, hw⟩ := fetchCells_succ_ok h
    cases j with
    | zero =>
      rw [Nat.mul_zero, Nat.pow_zero, Nat.div_one]
      rw [Nat.add_zero] at hlow hhigh ⊢
      omega
    | succ j =>
      have hdiv : w / 2 ^ 8 = u := by rw [Nat.add_zero] at hlow hhigh; omega
      rw [Nat.mul_succ, Nat.add_comm (8 * j), Nat.pow_add, ← Nat.div_div_eq_div_mul, hdiv,
        ih hu (Nat.lt_of_succ_lt_succ hj), Nat.add_right_comm, Nat.add_assoc]

theorem isByte_ofByte (b : Byte) : isByte (Word.ofByte b) := by
  have hb := b.isLt
  rw [isByte, toInt_ofByte]
  omega

/-- Cells that hold the bytes of a list are fetched as the word those bytes spell. -/
theorem fetchCells_of_bytes {s : State} {addr : Nat} {bs : List Byte}
    (h : ∀ j < bs.length, s.cell (addr + j) = Word.ofByte (bs.getD j 0)) :
    fetchCells s addr bs.length = .ok (deserialize bs) := by
  induction bs generalizing addr with
  | nil => rfl
  | cons b bs ih =>
    have hhead : s.cell addr = Word.ofByte b := h 0 (Nat.succ_pos _)
    have htail : fetchCells s (addr + 1) bs.length = .ok (deserialize bs) := ih fun j hj => by
      rw [Nat.add_assoc, Nat.add_comm 1]
      exact h (j + 1) (Nat.succ_lt_succ hj)
    rw [List.length_cons, fetchCells_succ_of_isByte (hhead ▸ isByte_ofByte b), htail, hhead, toInt_ofByte]
    rfl

/-! ### The fetch of an instruction -/

theorem fetchInstr_of_fetchBytes {s : State} {f : Format} {w : Nat} (hf : formatByOpcode (opcodeNibble s) = some f)
    (hw : fetchBytes s s.pc f.size = .ok w) : fetchInstr s = .ok (decodeFormat f w) := by
  simp only [fetchInstr, hf, hw]

theorem fetchInstr_of_fetchBytes_error {s : State} {f : Format} {e : Fault}
    (hf : formatByOpcode (opcodeNibble s) = some f) (he : fetchBytes s s.pc f.size = .error e) :
    fetchInstr s = .error e := by
  simp only [fetchInstr, hf, he]

theorem fetchBytes_of_le {s : State} {addr k : Nat} (h : addr + k ≤ s.memSize) :
    fetchBytes s addr k = fetchCells s addr k := if_neg (Nat.not_lt.2 h)

/-- A fetched instruction is well formed. -/
theorem wf_of_fetchInstr {s : State} {i : Instr} (h : fetchInstr s = .ok i) : i.wf = true := by
  obtain ⟨f, w, hf, -, -, rfl⟩ := fetchInstr_ok h
  exact wf_decodeFormat_of_lookup hf w

theorem ilen_decodeFormat {a : Nat} {f : Format} (h : formatByOpcode a = some f) (w : Nat) :
    ilen (decodeFormat f w).mnemonic = f.size := by
  obtain ⟨hf, -⟩ := formatOf_of_formatByOpcode h
  rw [decodeFormat_mnemonic, ilen, hf]

/-- Settles O26: the nibble is the first byte's, and the cells of the format's length spell the bytes' word. -/
theorem stepRunsTheDecodedInstruction : Obligations.StepRunsTheDecodedInstruction := by
  unfold Obligations.StepRunsTheDecodedInstruction
  intro s bs i rest hrun hdecode hcells hfits
  refine step_of_fetch_ok hrun ?_
  cases bs with
  | nil => cases hdecode
  | cons b bs =>
    obtain ⟨f, hf, hl, rfl, -⟩ := decodeBytes_cons_ok hdecode
    have hsize := ilen_decodeFormat hf (deserialize ((b :: bs).take f.size))
    have hpos : 3 ≤ f.size := hsize ▸ (ilen_pos _).1
    rw [hsize] at hcells hfits
    have hfirst : s.cell s.pc = Word.ofByte b := hcells 0 (by omega)
    have hnibble : opcodeNibble s = b.toNat % 16 := by
      rw [opcodeNibble, hfirst, toInt_ofByte]
      omega
    have hlength : ((b :: bs).take f.size).length = f.size := List.length_take_of_le hl
    have hword : fetchCells s s.pc f.size = .ok (deserialize ((b :: bs).take f.size)) := by
      have htaken := fetchCells_of_bytes (s := s) (addr := s.pc) (bs := (b :: bs).take f.size) fun j hj => by
        rw [hlength] at hj
        rw [hcells j hj, List.getD_eq_getElem?_getD, List.getD_eq_getElem?_getD, List.getElem?_take_of_lt hj]
      rwa [hlength] at htaken
    exact fetchInstr_of_fetchBytes (hnibble ▸ hf) ((fetchBytes_of_le hfits).trans hword)

/-- Settles O27: the lookup, the bound and the loop of fetch one after the other. -/
theorem fetchFaultsInOrder : Obligations.FetchFaultsInOrder := by
  unfold Obligations.FetchFaultsInOrder
  rintro s nib hrun rfl
  refine ⟨fun hnone => ?unknown, fun f hf => ⟨fun hout => ?past, fun hfits => ⟨fun j hj hbad hbefore => ?nonByte,
    fun hbytes => ?fetched⟩⟩⟩
  case unknown =>
    have hfetch : fetchInstr s = .error (.unknownOpcode s.pc (opcodeNibble s)) := by
      have hnone' : formatByOpcode (opcodeNibble s) = none := hnone
      simp only [fetchInstr, hnone']
    exact step_of_fetch_error hrun hfetch
  case past => exact step_of_fetch_error hrun (fetchInstr_of_fetchBytes_error hf (if_pos hout))
  case nonByte =>
    have hcells := fetchCells_of_first_not_isByte hj hbad hbefore
    exact step_of_fetch_error hrun (fetchInstr_of_fetchBytes_error hf ((fetchBytes_of_le hfits).trans hcells))
  case fetched =>
    obtain ⟨w, hw⟩ := fetchCells_of_isByte hbytes
    have hfetch := fetchInstr_of_fetchBytes hf ((fetchBytes_of_le hfits).trans hw)
    exact ⟨_, decodeFormat_mnemonic f w, wf_of_fetchInstr hfetch, hfetch, step_of_fetch_ok hrun hfetch⟩

/-! ### What a store changes -/

/-- Settles O33: the stored cell is read like any other, by the nibble and by the loop of fetch. -/
theorem storeIsSeenByTheNextFetch : Obligations.StoreIsSeenByTheNextFetch := by
  unfold Obligations.StoreIsSeenByTheNextFetch
  intro s t b c hm hrun hfetch hb hstep
  rw [step_of_fetch_ok hrun hfetch, exec_stm_of_lt c hb] at hstep
  cases hstep
  have hstored : (advance .stm (s.setCell b (s.reg c))).cell b = s.reg c := by
    rw [advance_cell, State.cell_setCell_same hm]
  refine ⟨rfl, hstored, fun hbpc => ?nibble, fun k w j hj hbj hw => ?byte⟩
  case nibble => rw [opcodeNibble, ← hbpc, hstored]
  case byte =>
    obtain ⟨-, hcells⟩ := fetchBytes_ok_iff.1 hw
    rw [fetchCells_byte hcells hj, ← hbj, hstored]

/-- Settles O34: of the three things an instruction can do, only STM's touches the memory, and it touches no register. -/
theorem onlyStmWritesMemory : Obligations.OnlyStmWritesMemory := by
  unfold Obligations.OnlyStmWritesMemory
  intro s t hstep
  rcases step_next_cases hstep with ⟨-, -, rfl⟩ | ⟨-, f, -, rfl⟩ | ⟨-, i, hi, hexec⟩
  · exact ⟨fun _ => rfl, fun _ _ _ => rfl⟩
  · exact ⟨fun _ => rfl, fun _ _ _ => rfl⟩
  · rcases exec_next_cases hexec with ⟨a, -, rfl⟩ | ⟨d, v, hno, -, rfl⟩ | ⟨b, c, rfl, -, rfl⟩
    · exact ⟨fun _ => rfl, fun _ _ _ => rfl⟩
    · exact ⟨fun _ => rfl, fun b c hstm => absurd (Except.ok.inj (hi.symm.trans hstm)) (hno b c)⟩
    · exact ⟨fun hno => absurd hi (hno b c), fun _ _ _ => rfl⟩

/-- A step leaves the memory alone, or stores one register below `MEM_SIZE` at an address of ten bits. -/
theorem step_mem_cases {s t : State} (h : step s = .next t) :
    t.mem = s.mem ∨ ∃ (b : Nat) (c : RegIdx), b < s.memSize ∧ b < 1024 ∧ t.mem = s.mem.write b (s.reg c) := by
  rcases step_next_cases h with ⟨-, -, rfl⟩ | ⟨-, f, -, rfl⟩ | ⟨-, i, hi, hexec⟩
  · exact .inl rfl
  · exact .inl rfl
  · rcases exec_next_cases hexec with ⟨a, -, rfl⟩ | ⟨d, v, -, -, rfl⟩ | ⟨b, c, rfl, hb, rfl⟩
    · exact .inl rfl
    · exact .inl rfl
    · obtain ⟨-, hten⟩ := of_decide_eq_true (wf_of_fetchInstr hi)
      exact .inr ⟨b, c, hb, by omega, rfl⟩

theorem step_mem_wf {s t : State} (hm : s.mem.wf = true) (h : step s = .next t) : t.mem.wf = true := by
  rcases step_mem_cases h with e | ⟨b, c, -, -, e⟩ <;> rw [e]
  · exact hm
  · exact s.mem.wf_write hm b _

/-- Settles O35: a store's address has ten bits, so every step keeps a cell above them. -/
theorem cellsAbove1023AreNeverWritten : Obligations.CellsAbove1023AreNeverWritten := by
  unfold Obligations.CellsAbove1023AreNeverWritten
  intro k s t a hm ha hrun
  refine (runSteps_keeps (fun u => u.mem.wf = true ∧ u.cell a = s.cell a) ?_ k ⟨hm, rfl⟩ hrun).2
  rintro u u' ⟨hwf, hcell⟩ hstep
  refine ⟨step_mem_wf hwf hstep, ?_⟩
  rcases step_mem_cases hstep with e | ⟨b, c, -, hb, e⟩
  · rw [← hcell, State.cell, e, State.cell]
  · rw [← hcell, State.cell, e, u.mem.read_write hwf, if_neg (by omega), State.cell]

/-! ### The pc -/

/-- Settles O36: neither the run condition nor fetch reads a register, and the fetched instruction's length is the
advance. -/
theorem controlFlowIgnoresRegisters : Obligations.ControlFlowIgnoresRegisters := by
  unfold Obligations.ControlFlowIgnoresRegisters
  intro s t t' regs hstep hstep' hfault hfault'
  have hrun' : State.running { s with regs := regs } = s.running := rfl
  cases hrun : s.running with
  | false => rw [eq_of_step_of_not_running hrun hstep, eq_of_step_of_not_running (hrun'.trans hrun) hstep']
  | true =>
    obtain ⟨i, hi, hexec⟩ := exec_of_step_no_fault hrun hstep hfault
    obtain ⟨i', hi', hexec'⟩ := exec_of_step_no_fault (hrun'.trans hrun) hstep' hfault'
    have hfetch : fetchInstr { s with regs := regs } = fetchInstr s := fetchInstr_congr_of_mem rfl rfl rfl
    obtain rfl : i' = i := Except.ok.inj (hi'.symm.trans (hfetch.trans hi))
    rw [exec_pc_of_no_fault hexec hfault, exec_pc_of_no_fault hexec' hfault']

end Sys2Proof.Machine

/-! PROOFS. Runs: the load that starts one, the invariant and the ranges that hold at every moment of it, and its end
(`10_state.md` sections 1, 3, 4 and 7, `41_fetch_dispatch.md` section 4, `42_instructions.md` section 2,
`70_reset_and_hazards.md` sections 1 and 2). -/

namespace Sys2Proof.Machine

/-! ### Canonical memories -/

/-- Of two canonical memories that read alike, neither lists an address below all of the other's. -/
theorem Memory.head_le_of_read_eq {a b : Nat} {u v : Word} {m m' : Memory} (hm : Memory.wf ((a, u) :: m) = true)
    (hm' : Memory.wf ((b, v) :: m') = true) (h : ∀ x, Memory.read ((a, u) :: m) x = Memory.read ((b, v) :: m') x) :
    b ≤ a := by
  obtain ⟨hu, -, -⟩ := (Memory.wf_cons a u m).1 hm
  obtain ⟨-, hlt, -⟩ := (Memory.wf_cons b v m').1 hm'
  by_contra hab
  have hbelow : ∀ c ∈ (b, v) :: m', a < c.1 :=
    List.forall_mem_cons.2 ⟨Nat.not_le.1 hab, fun c hc => (Nat.not_le.1 hab).trans (hlt c hc)⟩
  refine hu ?_
  rw [← Memory.read_of_lt_all _ a hbelow, ← h a, Memory.read_cons, if_pos rfl]

/-- A canonical memory that reads as `Config.dataInit` everywhere lists nothing. -/
theorem Memory.eq_nil_of_read {m : Memory} (hm : m.wf = true) (h : ∀ a, m.read a = Config.dataInit) : m = [] := by
  cases m with
  | nil => rfl
  | cons c m =>
    obtain ⟨a, u⟩ := c
    obtain ⟨hu, -, -⟩ := (Memory.wf_cons a u m).1 hm
    exact absurd ((if_pos rfl).symm.trans (h a)) hu

/-- Settles O43: two canonical memories that read alike have the same first cell, and the rest by induction. -/
theorem equalReadsEqualMemories : Obligations.EqualReadsEqualMemories := by
  unfold Obligations.EqualReadsEqualMemories
  intro m
  induction m with
  | nil => exact fun m' _ hm' h => (Memory.eq_nil_of_read hm' fun a => (h a).symm).symm
  | cons c m ih =>
    intro m' hm hm' h
    cases m' with
    | nil => exact Memory.eq_nil_of_read hm h
    | cons c' m' =>
      obtain ⟨a, u⟩ := c
      obtain ⟨b, v⟩ := c'
      obtain rfl : a = b :=
        Nat.le_antisymm (Memory.head_le_of_read_eq hm' hm fun x => (h x).symm) (Memory.head_le_of_read_eq hm hm' h)
      obtain ⟨-, hlt, hwf⟩ := (Memory.wf_cons a u m).1 hm
      obtain ⟨-, hlt', hwf'⟩ := (Memory.wf_cons a v m').1 hm'
      have hhead : u = v := by simpa only [Memory.read_cons, if_pos] using h a
      have htail (x : Nat) : Memory.read m x = Memory.read m' x := by
        by_cases hx : x = a
        · rw [hx, Memory.read_of_lt_all m a hlt, Memory.read_of_lt_all m' a hlt']
        · simpa only [Memory.read_cons, if_neg hx] using h x
      rw [hhead, ih m' hwf hwf' htail]

/-! ### The load -/

/-- What every write of a load keeps, the load keeps. -/
theorem loadBytes_keeps (P : Memory → Prop) {addr : Nat} {bs : List Byte} {m : Memory}
    (hwrite : ∀ (m : Memory) (a : Nat) (b : Byte), addr ≤ a → a < addr + bs.length → P m →
      P (m.write a (Word.ofByte b))) (hm : P m) : P (loadBytes addr bs m) := by
  induction bs generalizing addr m with
  | nil => exact hm
  | cons b bs ih =>
    rw [List.length_cons] at hwrite
    refine ih (fun m a b hlow hhigh => hwrite m a b (by omega) (by omega)) ?_
    exact hwrite m addr b le_rfl (by omega) hm

theorem loadBytes_wf (addr : Nat) (bs : List Byte) {m : Memory} (hm : m.wf = true) : (loadBytes addr bs m).wf = true :=
  loadBytes_keeps (fun m => m.wf = true) (fun m a b _ _ hm => m.wf_write hm a (Word.ofByte b)) hm

theorem loadBytes_below {addr n : Nat} {bs : List Byte} {m : Memory} (hm : m.below n = true)
    (hn : addr + bs.length ≤ n) : (loadBytes addr bs m).below n = true :=
  loadBytes_keeps (fun m => m.below n = true)
    (fun m a b _ ha hm => m.below_write n a (Word.ofByte b) hm (ha.trans_le hn)) hm

theorem fitsConstant_ofByte (b : Byte) : fitsConstant (Word.ofByte b) := by
  obtain ⟨hlow, hhigh⟩ := isByte_ofByte b
  constructor <;> omega

/-- A load into a memory of 20-bit values leaves one. -/
theorem loadBytes_fitsConstant (addr : Nat) (bs : List Byte) {m : Memory} (hm : m.wf = true)
    (h : ∀ a, fitsConstant (m.read a)) (a : Nat) : fitsConstant ((loadBytes addr bs m).read a) := by
  refine (loadBytes_keeps (fun m => m.wf = true ∧ ∀ a, fitsConstant (m.read a)) ?_ ⟨hm, h⟩).2 a
  rintro m a b - - ⟨hm, h⟩
  refine ⟨m.wf_write hm a _, fun c => ?_⟩
  rw [m.read_write hm]
  split
  · exact fitsConstant_ofByte b
  · exact h c

/-- The cells from the end of a load on stay. -/
theorem loadBytes_read_of_le {addr a : Nat} {bs : List Byte} {m : Memory} (hm : m.wf = true)
    (ha : addr + bs.length ≤ a) : (loadBytes addr bs m).read a = m.read a := by
  refine (loadBytes_keeps (fun m' => m'.wf = true ∧ m'.read a = m.read a) ?_ ⟨hm, rfl⟩).2
  rintro m' c b - hc ⟨hm', hread⟩
  exact ⟨m'.wf_write hm' c _, by rw [m'.read_write hm', if_neg (by omega), hread]⟩

/-! ### Launch and reset -/

theorem reset_reg (i : RegIdx) : State.reset.reg i = 0 := by
  simp [State.reg, State.reset]

/-- Settles O45: the launched state is the state after reset in all but the load. -/
theorem launchClearsTheRest : Obligations.LaunchClearsTheRest := by
  unfold Obligations.LaunchClearsTheRest
  intro memSize image s h
  obtain ⟨-, rfl⟩ := (launch_eq_next_iff memSize image s).1 h
  refine ⟨fun i => congrArg BitVec.toInt (reset_reg i), rfl, rfl, rfl, fun a ha => ?_⟩
  exact congrArg BitVec.toInt (loadBytes_read_of_le (m := []) rfl (by omega))

/-- Settles O46: the bound of the launch is not met. -/
theorem launchRefusesALongImage : Obligations.LaunchRefusesALongImage := by
  unfold Obligations.LaunchRefusesALongImage
  intro memSize image h
  exact if_neg (Nat.not_le.2 h)

/-- Settles O47: the registers by `reset_reg`, the rest by evaluation of the one state. -/
theorem resetState : Obligations.ResetState := by
  unfold Obligations.ResetState
  exact ⟨reset_reg, fun _ => rfl, reset_pc, reset_progLen, reset_fault, ⟨reset_fault, le_rfl⟩, rfl⟩

theorem latchOk_of_clear {s : State} (h : s.fault = none) : s.latchOk := by
  intro f hf
  rw [h] at hf
  cases hf

/-- Settles O39: the load keeps the memory canonical, below its size and of bytes. -/
theorem launchMeetsTheInvariant : Obligations.LaunchMeetsTheInvariant := by
  unfold Obligations.LaunchMeetsTheInvariant
  intro memSize image s h
  obtain ⟨hfits, rfl⟩ := (launch_eq_next_iff memSize image s).1 h
  refine ⟨⟨⟨loadBytes_wf 0 image rfl, loadBytes_below (n := memSize) rfl (by omega)⟩, ⟨hfits, Nat.zero_le _⟩, latchOk_of_clear rfl⟩,
    fun i => ?_, loadBytes_fitsConstant 0 image rfl fun a => ?_⟩
  · exact (congrArg fitsConstant (reset_reg i)).mpr (by decide)
  · exact (by decide : fitsConstant Config.dataInit)

/-- Settles O38: the state after reset is a launch. -/
theorem resetMeetsTheInvariant : Obligations.ResetMeetsTheInvariant := by
  unfold Obligations.ResetMeetsTheInvariant
  obtain ⟨-, -, -, -, -, -, hlaunch⟩ := resetState
  exact (launchMeetsTheInvariant _ _ _ hlaunch).1

/-! ### The invariant -/

theorem opcodeNibble_lt (s : State) : opcodeNibble s < 16 := by
  unfold opcodeNibble
  omega

/-- What a fault of fetch records. -/
theorem recordsOk_of_fetchInstr_error {s : State} {f : Fault} (h : fetchInstr s = .error f) : f.recordsOk s := by
  rcases fetchInstr_error h with ⟨hnone, rfl⟩ | ⟨g, hg, ⟨hout, rfl⟩ | ⟨hfits, hcells⟩⟩
  · exact ⟨rfl, opcodeNibble_lt s, hnone⟩
  · have hsize := size_le_of_formatByOpcode hg
    exact ⟨rfl, by omega⟩
  · obtain ⟨j, hj, rfl, hbad, -⟩ := fetchCells_error hcells
    have hsize := size_le_of_formatByOpcode hg
    exact ⟨by omega, by omega, by omega, hbad⟩

/-- The latch is no part of what a fault records. -/
theorem recordsOk_takeFault (f g : Fault) (s : State) : g.recordsOk (takeFault f s) ↔ g.recordsOk s := by
  cases g <;> exact Iff.rfl

theorem takeFault_inv {s : State} {f : Fault} (hs : s.Inv) (hf : f.recordsOk s) : (takeFault f s).Inv := by
  refine ⟨hs.mem, hs.bounds, fun g hg => ?_⟩
  obtain rfl := Option.some.inj hg
  exact (recordsOk_takeFault f f s).2 hf

/-- A running Core may advance: it starts below `L`, and an instruction has five bytes at most. -/
theorem advance_inv {s : State} (m : Mnemonic) (hmem : s.memOk) (hL : s.progLen ≤ s.memSize) (hrun : s.running = true) :
    (advance m s).Inv := by
  obtain ⟨hclear, hpc⟩ := s.running_iff.1 hrun
  obtain ⟨-, hlen⟩ := ilen_pos m
  exact ⟨hmem, ⟨hL, by rw [advance_pc, advance_progLen]; omega⟩, latchOk_of_clear hclear⟩

/-- Settles O37: a fault records what its rule allows, and what an instruction writes stays inside the memory. -/
theorem stepKeepsTheInvariant : Obligations.StepKeepsTheInvariant := by
  unfold Obligations.StepKeepsTheInvariant
  intro s t hs hstep
  rcases step_next_cases hstep with ⟨-, -, rfl⟩ | ⟨-, f, hf, rfl⟩ | ⟨hrun, i, hi, hexec⟩
  · exact hs
  · exact takeFault_inv hs (recordsOk_of_fetchInstr_error hf)
  · obtain ⟨hL, -⟩ := hs.bounds
    rcases exec_next_cases hexec with ⟨a, ha, rfl⟩ | ⟨d, v, -, -, rfl⟩ | ⟨b, c, -, hb, rfl⟩
    · exact takeFault_inv hs ha
    · exact advance_inv (s := s.setReg d v) _ hs.mem hL hrun
    · obtain ⟨hwf, hbelow⟩ := hs.mem
      have hmem : (s.setCell b (s.reg c)).memOk := ⟨s.mem.wf_write hwf b _, s.mem.below_write _ b _ hbelow hb⟩
      exact advance_inv (s := s.setCell b (s.reg c)) _ hmem hL hrun

/-! ### The values -/

theorem setReg_valuesFit {s : State} {v : Word} (hs : s.valuesFit) (d : RegIdx) (hv : fitsConstant v) :
    (s.setReg d v).valuesFit := by
  obtain ⟨hregs, hcells⟩ := hs
  refine ⟨fun i => ?_, hcells⟩
  rw [State.reg_setReg]
  split
  · exact hv
  · exact hregs i

theorem setCell_valuesFit {s : State} {v : Word} (hm : s.mem.wf = true) (hs : s.valuesFit) (b : Nat)
    (hv : fitsConstant v) : (s.setCell b v).valuesFit := by
  obtain ⟨hregs, hcells⟩ := hs
  refine ⟨hregs, fun a => ?_⟩
  rw [State.cell_setCell s hm]
  split
  · exact hv
  · exact hcells a

theorem fitsConstant_constant {c : Int} (h : signedFits 20 c = true) : fitsConstant (constant c) := by
  obtain ⟨hlow, hhigh⟩ := of_decide_eq_true h
  rw [fitsConstant, toInt_constant h]
  omega

/-- Settles O40: an instruction writes a register or a cell with what one held before, a truth value, or the 20-bit
constant of a decoded LC. -/
theorem stepKeepsValuesInRange : Obligations.StepKeepsValuesInRange := by
  unfold Obligations.StepKeepsValuesInRange
  intro s t hm hs hstep
  rcases step_next_cases hstep with ⟨-, -, rfl⟩ | ⟨-, f, -, rfl⟩ | ⟨-, i, hi, hexec⟩
  · exact hs
  · exact hs
  · rcases exec_next_cases hexec with ⟨a, -, rfl⟩ | ⟨d, v, -, hv, rfl⟩ | ⟨b, c, -, -, rfl⟩
    · exact hs
    · refine setReg_valuesFit hs d ?_
      rcases hv with ⟨b, c, rfl, rfl⟩ | rfl | rfl | ⟨a, rfl⟩
      · exact fitsConstant_constant (wf_of_fetchInstr hi)
      · decide
      · decide
      · exact hs.2 a
    · exact setCell_valuesFit hm hs b (hs.1 c)

/-- Settles O41: a launch starts in the invariant and the ranges, every step keeps both, and LDM's address is the sum of a
20-bit and a 15-bit signed value. -/
theorem runsStayInRange : Obligations.RunsStayInRange := by
  unfold Obligations.RunsStayInRange
  intro memSize image s hlaunch k t hrun
  have hkept : t.Inv ∧ t.valuesFit := by
    refine runSteps_keeps (fun u => u.Inv ∧ u.valuesFit) ?_ k (launchMeetsTheInvariant memSize image s hlaunch) hrun
    rintro u u' ⟨hinv, hfit⟩ hstep
    exact ⟨stepKeepsTheInvariant u u' hinv hstep, stepKeepsValuesInRange u u' hinv.mem.1 hfit hstep⟩
  obtain ⟨hinv, hfit⟩ := hkept
  refine ⟨hinv, hfit, fun b c d hfetch => ?_⟩
  obtain ⟨hlow, hhigh⟩ := of_decide_eq_true (wf_of_fetchInstr hfetch)
  obtain ⟨hbaseLow, hbaseHigh⟩ := hfit.1 d
  unfold baseOffsetAddress State.regInt
  constructor <;> omega

/-! ### The end of a run -/

/-- After `k` steps the Core is not running, or one of them has answered its fault. -/
def EndsWithin (k : Nat) (s : State) : Prop :=
  (∃ t, runSteps k s = .next t ∧ t.running = false) ∨ ∃ f, runSteps k s = .fault f

theorem not_running_of_end_le {s : State} (h : s.progLen ≤ s.pc) : s.running = false := by
  rw [← Bool.not_eq_true, s.running_iff]
  rintro ⟨-, hpc⟩
  omega

theorem endsWithin_of_latched {s : State} {f : Fault} (h : s.fault = some f) (k : Nat) : EndsWithin k s := by
  cases k with
  | zero =>
    refine .inl ⟨s, rfl, ?_⟩
    rw [State.running, h]
    rfl
  | succ k => exact .inr ⟨f, runSteps_of_fault (step_of_latched h) k⟩

/-- A step of a running Core that raises no fault brings the end three cells nearer, or more. -/
theorem enoughSteps_of_step {s t : State} {k : Nat} (hk : enoughSteps s (k + 1)) (hstep : step s = .next t)
    (hfault : t.fault = none) : enoughSteps t k := by
  have hL : t.progLen = s.progLen := step_progLen hstep
  unfold enoughSteps at hk ⊢
  cases hrun : s.running with
  | false =>
    obtain rfl := eq_of_step_of_not_running hrun hstep
    have hend : ¬ t.pc < t.progLen := fun hpc => by
      rw [t.running_iff.2 ⟨hfault, hpc⟩] at hrun
      cases hrun
    omega
  | true =>
    obtain ⟨i, -, hexec⟩ := exec_of_step_no_fault hrun hstep hfault
    have hpc := exec_pc_of_no_fault hexec hfault
    obtain ⟨hlen, -⟩ := ilen_pos i.mnemonic
    omega

/-- Settles O42: by induction on the number of steps; a step latches a fault or comes three cells nearer to the end. -/
theorem runEndsWithinTheBound : Obligations.RunEndsWithinTheBound := by
  unfold Obligations.RunEndsWithinTheBound
  intro s k hk
  change EndsWithin k s
  induction k generalizing s with
  | zero => exact .inl ⟨s, rfl, not_running_of_end_le hk⟩
  | succ k ih =>
    rcases step_answers s with ⟨t, hstep⟩ | ⟨f, hlatch, -⟩
    · have hends : EndsWithin k t := by
        cases hfault : t.fault with
        | none => exact ih t (enoughSteps_of_step hk hstep hfault)
        | some f => exact endsWithin_of_latched hfault k
      unfold EndsWithin
      rwa [runSteps_of_next hstep]
    · exact endsWithin_of_latched hlatch (k + 1)

end Sys2Proof.Machine

/-! PROOFS. The assembler's text front end, from spellings to files (`30_encoding.md` R79, R87, R88), and the status codes
(`60_exceptions.md` R167). -/

namespace Sys2Proof.Machine

/-! ### Status codes -/

/-- Settles O48: one code per fault, and the Encoder's two answers. -/
theorem faultCodes : Obligations.FaultCodes := by
  unfold Obligations.FaultCodes
  refine ⟨rfl, fun _ _ => rfl, fun _ => rfl, fun _ => rfl, fun _ => rfl, fun m vals => ⟨fun bs h => ?_, fun f v n h => ?_⟩⟩
  · rw [h, encoderCode_ok]
  · rw [h, encoderCode_error, EncodeError.code]

/-! ### Spellings -/

/-- Each of the eight spellings, in capitals and in small letters, names its mnemonic. -/
theorem mnemonicOf_of_mem_spellings :
    ∀ p ∈ spellings, mnemonicOf p.1 = some p.2 ∧ mnemonicOf (p.1.map Char.toLower) = some p.2 := by
  decide +kernel

theorem mnemonicOf_eq_none {t : List Char} (h : ∀ p ∈ spellings, t.map Char.toUpper ≠ p.1) : mnemonicOf t = none :=
  List.lookup_eq_none_iff.2 fun p hp => bne_iff_ne.2 (h p hp)

theorem resolveTokens_of_mnemonicOf_none {t : List Char} (n : Nat) (ops : List (List Char)) (h : mnemonicOf t = none) :
    resolveTokens n t ops = .error (.unknownMnemonic n t) := by
  simp only [resolveTokens, h]

/-- Settles O49: the table by evaluation, everything else by its lookup under the token's capitals. -/
theorem mnemonicSpellings : Obligations.MnemonicSpellings := by
  unfold Obligations.MnemonicSpellings
  refine ⟨by decide +kernel, fun sp m h => mnemonicOf_of_mem_spellings (sp, m) h, fun t t' h => ?_,
    fun t h => mnemonicOf_eq_none fun p hp => h p.1 p.2 hp,
    fun n t ops h => resolveTokens_of_mnemonicOf_none n ops h⟩
  rw [mnemonicOf, h, mnemonicOf]

/-! ### A line that is not blank -/

theorem isBlankLine_of_mem {text : List Char} {c : Char} (hc : c ∈ stripComment text)
    (h : c ≠ ' ' ∧ c ≠ '\t' ∧ c ≠ '\r') : isBlankLine text = false := by
  rw [← Bool.not_eq_true, isBlankLine_iff]
  intro hblank
  obtain ⟨hspace, htab, hreturn⟩ := h
  rcases (isWhiteSpace_iff c).1 (hblank c hc) with e | e | e
  · exact hspace e
  · exact htab e
  · exact hreturn e

theorem assembleLine_of_resolveLine_error {n : Nat} {text : List Char} {e : AsmError}
    (hblank : isBlankLine text = false) (h : resolveLine n text = .error e) : assembleLine n text = .error e := by
  simp [assembleLine, hblank, h]

/-- A line that resolves has a first token, and its tokens resolve. -/
theorem resolveLine_ok {n : Nat} {text : List Char} {m : Mnemonic} {vs : List Int}
    (h : resolveLine n text = .ok (m, vs)) :
    ∃ t ops, lineTokens text = t :: ops ∧ resolveTokens n t ops = .ok (m, vs) := by
  unfold resolveLine at h
  split at h
  · cases h
  · next t ops htokens => exact ⟨t, ops, htokens, h⟩

/-- A line that is not blank and assembles has resolved, and has the Encoder's bytes. -/
theorem assembleLine_ok {n : Nat} {text : List Char} {bs : List Byte} (hblank : isBlankLine text = false)
    (h : assembleLine n text = .ok bs) :
    ∃ m vs, resolveLine n text = .ok (m, vs) ∧ encodeFields m vs = .ok bs := by
  rcases assembleLine_cases n text with ⟨hblank', -⟩ | ⟨-, ⟨e, -, he⟩ | ⟨m, vs, hr, ⟨bs', hbs, hok⟩ | ⟨e, -, he⟩⟩⟩
  · rw [hblank] at hblank'
    cases hblank'
  · rw [h] at he
    cases he
  · obtain rfl := Except.ok.inj (h.symm.trans hok)
    exact ⟨m, vs, hr, hbs⟩
  · rw [h] at he
    cases he

/-- Settles O55: the line's bytes are the Encoder's, and those decode to one instruction. -/
theorem nonBlankLineIsOneInstruction : Obligations.NonBlankLineIsOneInstruction := by
  unfold Obligations.NonBlankLineIsOneInstruction
  rintro n text ⟨c, hc, hchar⟩
  have hblank := isBlankLine_of_mem hc hchar
  refine ⟨fun bs h => ?assembles, fun t ops e htokens h => ?unresolved, fun htokens => ?commas⟩
  case assembles =>
    obtain ⟨m, vs, hr, hbs⟩ := assembleLine_ok hblank h
    obtain ⟨t, ops, htokens, hresolve⟩ := resolveLine_ok hr
    obtain ⟨i, hmnemonic, -, hdecode⟩ := decodeBytes_encodeFields_append hbs
    exact ⟨t, ops, m, vs, i, htokens, hresolve, hbs, by simpa using hdecode [], hmnemonic⟩
  case unresolved =>
    exact assembleLine_of_resolveLine_error hblank ((resolveLine_of_lineTokens_cons n htokens).trans h)
  case commas => exact assembleLine_of_resolveLine_error hblank (by rw [resolveLine, htokens])

/-! ### Files -/

theorem assembleLines_cons (n : Nat) (text : List Char) (rest : List (List Char)) :
    assembleLines n (text :: rest) = do
      let bs ← assembleLine n text
      let image ← assembleLines (n + 1) rest
      return bs ++ image := by
  rw [assembleLines]
  cases assembleLine n text with
  | error e => rfl
  | ok bs => cases assembleLines (n + 1) rest <;> rfl

/-- The lines of two parts, the second numbered on from the first. -/
theorem assembleLines_append (n : Nat) (xs ys : List (List Char)) :
    assembleLines n (xs ++ ys) = do
      let a ← assembleLines n xs
      let b ← assembleLines (n + xs.length) ys
      return a ++ b := by
  induction xs generalizing n with
  | nil => exact (bind_pure (assembleLines n ys)).symm
  | cons x xs ih =>
    have hnumber : n + 1 + xs.length = n + (x :: xs).length := by rw [List.length_cons]; omega
    simp only [List.cons_append, assembleLines_cons, ih, hnumber, bind_assoc, pure_bind, List.append_assoc]

theorem assembleLines_singleton (n : Nat) (line : List Char) : assembleLines n [line] = assembleLine n line := by
  rw [assembleLines_cons]
  cases assembleLine n line with
  | error e => rfl
  | ok bs => exact congrArg Except.ok (List.append_nil bs)

theorem splitLines_cons_of_ne {c : Char} {cs l : List Char} {ls : List (List Char)} (hc : c ≠ '\n')
    (h : splitLines cs = l :: ls) : splitLines (c :: cs) = (c :: l) :: ls := by
  rw [splitLines, if_neg hc, h]

theorem splitLines_of_no_newline {line : List Char} (h : ∀ c ∈ line, c ≠ '\n') : splitLines line = [line] := by
  induction line with
  | nil => rfl
  | cons c line ih =>
    obtain ⟨hc, hline⟩ := List.forall_mem_cons.1 h
    exact splitLines_cons_of_ne hc (ih hline)

theorem splitLines_append_newline {line : List Char} (h : ∀ c ∈ line, c ≠ '\n') (rest : List Char) :
    splitLines (line ++ '\n' :: rest) = line :: splitLines rest := by
  induction line with
  | nil => rfl
  | cons c line ih =>
    obtain ⟨hc, hline⟩ := List.forall_mem_cons.1 h
    exact splitLines_cons_of_ne hc (ih hline)

/-- Settles O53: the clauses on two parts from `assembleLines_append`, those on a source text from `splitLines`. -/
theorem assemblyConcatenatesLines : Obligations.AssemblyConcatenatesLines := by
  unfold Obligations.AssemblyConcatenatesLines
  refine ⟨fun _ => rfl, assembleLines_singleton, fun n xs ys a b hx hy => ?both, fun n xs ys e hx => ?first,
    fun n xs ys a e hx hy => ?second, fun line rest h => ⟨?one, ?more⟩⟩
  case both => rw [assembleLines_append, hx, hy]; rfl
  case first => rw [assembleLines_append, hx]; rfl
  case second => rw [assembleLines_append, hx, hy]; rfl
  case one => rw [assemble, splitLines_of_no_newline h]
  case more => rw [assemble, splitLines_append_newline h]

end Sys2Proof.Machine
